-- ==== Sys2Proof/Word.lean ====
section
/-! DEFINITION. The word type of the machine: the byte, the only addressable unit (20_memory R31). -/

namespace Sys2Proof

/-- A byte: bits 7 (top) to 0, unsigned (00_scope R5). -/
abbrev Byte := BitVec 8

end Sys2Proof
end

