-- ==== Sys2Proof/Syntax.lean ====
section
/-! DEFINITION. The four instructions of the core, one constructor per row of spec/opcode_table.json
(30_encoding R50): two host commands and two stream tokens. -/

namespace Sys2Proof

/-- An instruction. The commands carry `LEN_IN`, the tokens the operands of R57. -/
inductive Instr where
  /-- `ENCODE n` (40_encoder R70). -/
  | encode (lenIn : Nat)
  /-- `DECODE n` (41_decoder R90). -/
  | decode (lenIn : Nat)
  /-- `RUN c, v` (30_encoding R53): the whole count byte and the seven value bits. -/
  | run (c : Byte) (v : BitVec 7)
  /-- `LIT b` (30_encoding R52): all eight bits, which the parser takes as they are (R57). -/
  | lit (b : Byte)
  deriving DecidableEq, Repr

end Sys2Proof
end

