-- ==== Sys2Proof/WellFormed.lean ====
section
/-! DEFINITION. When an instruction fits its encoding, and the classes of tokens of 30_encoding R58. -/

namespace Sys2Proof

/-- Every operand fits its field of the encoding: `LEN_IN` has `lw` bits (30_encoding R51).
The operands of the tokens fit by their types. -/
def Instr.wellFormed (lw : Nat) : Instr → Bool
  | .encode n => decide (n < 2 ^ lw)
  | .decode n => decide (n < 2 ^ lw)
  | .run _ _ => true
  | .lit _ => true

/-- Whether the instruction is a stream token (30_encoding R50). -/
def Instr.isToken : Instr → Bool
  | .encode _ => false
  | .decode _ => false
  | .run _ _ => true
  | .lit _ => true

/-- A well-formed token (30_encoding R58 (a)): a literal with bit 7 clear, or a run of count 2..255. -/
def Instr.tokenWellFormed : Instr → Bool
  | .encode _ => false
  | .decode _ => false
  | .run c _ => decide (2 ≤ c.toNat)
  | .lit b => decide (b.toNat ≤ 127)

/-- The pair the parser misreads: a literal directly followed by a run of count 128..255
(30_encoding R58 (d), R60). -/
def Instr.unsafePair : Instr → Instr → Bool
  | .lit _, .run c _ => decide (128 ≤ c.toNat)
  | _, _ => false

/-- A parse-safe token list (30_encoding R58 (d)): well-formed tokens, no pair the parser misreads. -/
def parseSafe : List Instr → Bool
  | [] => true
  | [t] => t.tokenWellFormed
  | t :: u :: rest => t.tokenWellFormed && !t.unsafePair u && parseSafe (u :: rest)

end Sys2Proof
end

