-- ==== Sys2Proof/Decode.lean ====
section
/-! DEFINITION. The encodings of 30_encoding, read and written: the bit operations of R112, the token
parser of R55, the command word of R51, and the encoder of both. -/

namespace Sys2Proof

/-- Why bits are no instruction. -/
inductive Reject where
  /-- There is no current byte: a stream ends exactly where `rd` reaches `len` (10_state R19 (a)). Safe. -/
  | emptyWindow
  /-- The command word has bits above `LEN_IN`'s `LW` bits (30_encoding R51). Safe. -/
  | lenInTooWide
  deriving DecidableEq, Repr

/-- The words of an instruction, at its level (30_encoding R50). -/
inductive Words where
  /-- The `1 + LW` bits of a command, `OP` in bit 0 and `LEN_IN` above it (R51; log 14). -/
  | command (w : Nat)
  /-- Bytes of a token stream, lowest index first (R54). -/
  | stream (bytes : List Byte)
  deriving DecidableEq, Repr

/-- `x[7]`, the top bit (42_arithmetic R112). -/
def topBit (x : Byte) : Bool := x.getLsbD 7

/-- `x | 0x80` (42_arithmetic R112). -/
def orFlag (x : Byte) : Byte := x ||| 0x80#8

/-- `x & 0x7F` (42_arithmetic R112). -/
def andMask (x : Byte) : Byte := x &&& 0x7F#8

/-- The value byte of a run token as the parser keeps it: seven bits (30_encoding R57). -/
def valueBits (x : Byte) : BitVec 7 := (andMask x).setWidth 7

/-- The byte that a run of `v` writes (41_decoder R96): `v` with the top bit clear. -/
def valueByte (v : BitVec 7) : Byte := v.setWidth 8

/-- The parser (30_encoding R55, R57): the token at the front of the remaining stream, and what follows it.
The next byte's top bit decides; the current byte's top bit plays no part. -/
def decodeToken : List Byte → Except Reject (Instr × List Byte)
  | [] => .error .emptyWindow
  | [b] => .ok (.lit b, [])
  | b :: n :: rest => if topBit n then .ok (.run b (valueBits n), rest) else .ok (.lit b, n :: rest)

/-- A command from its two fields (30_encoding R51): both values of `OP` are used, so it is total. -/
def decodeCommand (op : BitVec 1) (lenIn : Nat) : Instr :=
  if op = 0#1 then .encode lenIn else .decode lenIn

/-- The field `OP` of a command word (30_encoding R51; opcode_table.json, mask 0x1). -/
def commandOp (w : Nat) : BitVec 1 := BitVec.ofNat 1 w

/-- The field `LEN_IN` of a command word (30_encoding R51). -/
def commandLen (w : Nat) : Nat := w / 2

/-- Decoding at both levels, total: an instruction with the rest of the stream, or a rejection by name. -/
def decode (lw : Nat) : Words → Except Reject (Instr × List Byte)
  | .command w =>
    if commandLen w < 2 ^ lw then .ok (decodeCommand (commandOp w) (commandLen w), []) else .error .lenInTooWide
  | .stream bytes => decodeToken bytes

/-- The bytes of a token (30_encoding R62); a command has none. -/
def tokenBytes : Instr → List Byte
  | .encode _ => []
  | .decode _ => []
  | .run c v => [c, orFlag (valueByte v)]
  | .lit b => [b]

/-- The encoder: the words of an instruction (30_encoding R51, R52, R53, R62). -/
def encode : Instr → Words
  | .encode n => .command (2 * n)
  | .decode n => .command (2 * n + 1)
  | .run c v => .stream (tokenBytes (.run c v))
  | .lit b => .stream (tokenBytes (.lit b))

/-- `Asm` (30_encoding R62): the bytes of a token program, one token after the other (R54). -/
def asm : List Instr → List Byte
  | [] => []
  | t :: rest => tokenBytes t ++ asm rest

/-- The tokens the parser reads from a whole stream, left to right (30_encoding R55, 41_decoder R101). -/
def parseStream : List Byte → List Instr
  | [] => []
  | [b] => [.lit b]
  | b :: n :: rest => if topBit n then .run b (valueBits n) :: parseStream rest else .lit b :: parseStream (n :: rest)

/-- Which words the opcode table's number `w` of `nbits` bits stands for (DESIGN CHOICE, log 14).
A number whose bit 7 is set, and every 16-bit number, is a token window: `SCR[rd]` in bits 15:8 and
`SCR[rd+1]` in bits 7:0 (92 D25). A row without bits is the one-byte literal. Else it is a command. -/
def tableWords (nbits w : Nat) : Words :=
  if nbits = 0 then .stream [BitVec.ofNat 8 w]
  else if nbits ≤ 8 ∧ topBit (BitVec.ofNat 8 w) = true ∨ 8 < nbits ∧ nbits ≤ 16 then
    .stream [BitVec.ofNat 8 (w / 256), BitVec.ofNat 8 w]
  else .command w

/-- The instruction the decoder reads from a number of the opcode table (log 14).
A command of `nbits` bits has a `LEN_IN` of `nbits - 1` bits. -/
def decodeTableWord (nbits w : Nat) : Option Instr :=
  match decode (nbits - 1) (tableWords nbits w) with
  | .ok (i, _) => some i
  | .error _ => none

end Sys2Proof
end

