-- ==== Sys2Proof/Config.lean ====
section
/-! DEFINITION. What the spec leaves to an implementation, and the free values of the model. -/

namespace Sys2Proof

/-- DESIGN CHOICE (log 2), unsafe: the capacity `CAP` of the machine in `State.reset`.
The spec leaves `CAP` open (00_scope R4); no statement rests on this number. -/
def Config.resetCap : Nat := 512

/-- FREE VALUE (log 9): a byte the spec leaves unspecified.
It has no body, so nothing can be proved of it; `State.draws` gives it a fresh argument each time. -/
opaque Config.freeByte : Nat → Byte

/-- FREE VALUE (log 9): a number the spec leaves unspecified (a cursor or length register).
It is reduced to `LW` bits where it is stored. -/
opaque Config.freeNat : Nat → Nat

end Sys2Proof
end

