-- ==== Sys2Proof/Machine/State.lean ====
section
/-! DEFINITION. The state of the core as plain data (10_state R10), its reset, and the reasons a step stops. -/

namespace Sys2Proof.Machine

/-- A byte array of `size` bytes (10_state R11, R12; 20_memory R30).
`cells` lists addresses in rising order and no cell equal to what an unlisted address reads as. -/
structure Memory where
  size : Nat
  cells : List Host.Cell
  deriving DecidableEq, Repr

/-- Where the core is (10_state R19 (b)). -/
inductive Phase where
  /-- No command runs; the host owns `BUF`. -/
  | idle
  /-- An `ENCODE` runs; between encoder steps. -/
  | enc
  /-- A `DECODE` runs; the snapshot into `SCR` is to be made. -/
  | decCopy
  /-- A `DECODE` runs; between decoder steps. -/
  | dec
  deriving DecidableEq, Repr

/-- A move of the host or of the environment (60_exceptions R152; log 6). -/
inductive Event where
  /-- The host writes one byte of `BUF` (R152, load). -/
  | hostWrite (i : Nat) (b : Byte)
  /-- The host writes `OP` and `LEN_IN` and presents `START` (10_state R20).
  `stepwise` shows the command one algorithmic step at a time instead of whole (92 D1; log 5). -/
  | command (op : BitVec 1) (lenIn : Nat) (stepwise : Bool)
  /-- The environment sets the answer `ScratchAvail` gives from now on (00_scope R4; log 4). -/
  | scratch (ok : Bool)
  /-- `RST` (70_reset R160). -/
  | reset
  /-- The host makes no move: the core takes its next algorithmic step. -/
  | coreTurn
  deriving DecidableEq, Repr

/-- Everything the spec gives the machine (10_state R10), and the model's own `script`, `stepwise`, `draws`. -/
structure State where
  /-- `BUF`; its size is `CAP` (R11; log 1). -/
  buf : Memory
  /-- `SCR`, which exists only during `DECODE` (R12). -/
  scr : Option Memory
  /-- Read cursor (R13). -/
  rd : Nat
  /-- Write cursor (R14). -/
  wr : Nat
  /-- The latched operand (R15). -/
  len : Nat
  /-- The byte at the read cursor (R16). -/
  cur : Byte
  /-- Run count (R17). -/
  cnt : Byte
  /-- Run value of the decoder (R18). -/
  val : Byte
  /-- Sequencing register (R19 (b)). -/
  phase : Phase
  /-- Command field `OP` (R20). -/
  op : BitVec 1
  /-- Command field `LEN_IN`, `LW` bits (R20; 00_scope R4): `Inv.lenInWidth`. -/
  lenIn : Nat
  /-- The event `START`, pending (R20). -/
  start : Bool
  /-- MODEL's own: the pending `START` is to be shown stepwise (log 5). -/
  stepwise : Bool
  /-- Status `BUSY` (R21). -/
  busy : Bool
  /-- Status `DONE` (R21). -/
  done : Bool
  /-- Status `ERR` (R21). -/
  err : Bool
  /-- Status `CAUSE` (R21). -/
  cause : BitVec 2
  /-- Status `LEN_OUT` (R21). -/
  lenOut : Nat
  /-- The answer `ScratchAvail` gives (R24 (b); log 4). -/
  scratchOk : Bool
  /-- MODEL's own: pending moves of host and environment, oldest first (log 6). -/
  script : List Event
  /-- MODEL's own: how many free values have been drawn (log 9). -/
  draws : Nat
  deriving DecidableEq, Repr

/-- Why the machine stops with no final state. -/
inductive Fault where
  /-- A decoder step would write an index `>= CAP` (41_decoder R105, 60_exceptions R143 (b)).
  Raised by `RUN`, `LIT` and the `DECODE` that performs them. Safe: the spec gives no final state. -/
  | destOverrun
  /-- An access to an index of `BUF` that does not exist (20_memory R30; log 12, log 13).
  Raised by a host write and, in states no run reaches, by the encoder. Safe. -/
  | bufRange
  /-- A read of `SCR` where it does not exist (10_state R12; log 12).
  Raised by the decoder's fetch, in states no run reaches. Safe. -/
  | scratchRange
  deriving DecidableEq, Repr

/-- Why a command or a move has no meaning. -/
inductive Refusal where
  /-- The instruction is not modelled yet; raised by `exec` alone. Safe. -/
  | notModelled (mnemonic : String)
  /-- `LEN_IN > CAP` (60_exceptions R143 (a)): the spec's own model-level refusal, raised by `ENCODE` and
  `DECODE`. Safe. -/
  | lenRange
  /-- A `LEN_IN` of more than `LW` bits is presented (00_scope R4, 30_encoding R51; log 18): the field has no such
  value. Raised by the move `command`. Safe: the host has no such move. -/
  | lenInTooWide
  /-- A host write to `BUF` while a command runs (20_memory R43, 92 D14; log 13): the spec gives the model no
  such move. Raised by the move `hostWrite`. Safe. -/
  | hostOwnership
  deriving DecidableEq, Repr

/-- The machine right after reset (10_state R25; 70_reset R160).
`phase` and the status fields are the spec's; the other registers 0, `CAP` and the empty listing of `BUF` are
DESIGN CHOICES (log 2, 4, 5, 6, 7, 8, 9), unsafe. -/
def State.reset : State where
  buf := { size := Config.resetCap, cells := [] }
  scr := none
  rd := 0
  wr := 0
  len := 0
  cur := 0
  cnt := 0
  val := 0
  phase := .idle
  op := 0
  lenIn := 0
  start := false
  stepwise := false
  busy := false
  done := false
  err := false
  cause := 0
  lenOut := 0
  scratchOk := true
  script := []
  draws := 0

end Sys2Proof.Machine
end

