-- ==== Sys2Proof/Machine/Ops.lean ====
section
/-! DEFINITION. The named operations over memory, registers and status fields that the meanings share. -/

namespace Sys2Proof.Machine

/-- Sequencing: go on from a next state, stop where the first part stops. -/
def andThen (o : Host.Outcome State Fault Refusal) (f : State → Host.Outcome State Fault Refusal) :
    Host.Outcome State Fault Refusal :=
  match o with
  | .next s => f s
  | .fault r => .fault r
  | .refused r => .refused r

/-! ### Memory (20_memory R30, R31) -/

/-- What an unlisted address reads as (DESIGN CHOICE, log 8; the spec: unspecified, 10_state R25). -/
def Memory.unlisted : Byte := 0

/-- The byte a list of cells holds at address `i`. -/
def cellsGet (i : Nat) : List Host.Cell → Byte
  | [] => Memory.unlisted
  | (j, c) :: rest => if i = j then c else cellsGet i rest

/-- Put a cell in front, unless it holds what an unlisted address reads as. -/
def cellsCons (i : Nat) (b : Byte) (rest : List Host.Cell) : List Host.Cell :=
  if b = Memory.unlisted then rest else (i, b) :: rest

/-- Store `b` at address `i`, keeping the canonical form. -/
def cellsSet (i : Nat) (b : Byte) : List Host.Cell → List Host.Cell
  | [] => cellsCons i b []
  | (j, c) :: rest =>
    if i < j then cellsCons i b ((j, c) :: rest)
    else if i = j then cellsCons i b rest
    else (j, c) :: cellsSet i b rest

/-- `M[i]` (00_scope R6). -/
def Memory.get (m : Memory) (i : Nat) : Byte := cellsGet i m.cells

/-- `M[i] <- b` (00_scope R6); the callers keep `i < m.size`. -/
def Memory.set (m : Memory) (i : Nat) (b : Byte) : Memory := { m with cells := cellsSet i b m.cells }

/-- The canonical form: addresses strictly rising, inside the memory, and no cell an unlisted address would equal. -/
abbrev Memory.wf (m : Memory) : Prop :=
  m.cells.Pairwise (fun a b => a.1 < b.1) ∧ ∀ c ∈ m.cells, c.1 < m.size ∧ c.2 ≠ Memory.unlisted

/-- `M[a..b)` (00_scope R6). -/
def Memory.slice (m : Memory) (a b : Nat) : List Byte := (List.range' a (b - a)).map m.get

/-- Write `b` at `i, i+1, ..., i+n-1`, in increasing order (41_decoder R96). -/
def Memory.fillRun (m : Memory) (i : Nat) (b : Byte) : Nat → Memory
  | 0 => m
  | n + 1 => (m.set i b).fillRun (i + 1) b n

/-- Write the bytes of a list at `i, i+1, ...`. -/
def Memory.setList (m : Memory) (i : Nat) : List Byte → Memory
  | [] => m
  | b :: rest => (m.set i b).setList (i + 1) rest

/-- A memory of `size` bytes that starts with the bytes of a list. -/
def Memory.ofBytes (size : Nat) (bytes : List Byte) : Memory := ({ size := size, cells := [] } : Memory).setList 0 bytes

/-- The copy of the first `n` bytes (41_decoder R93: `SCR[i] <- BUF[i]` for `0 <= i < n`). -/
def Memory.snapshot (m : Memory) (n : Nat) : Memory :=
  { size := n, cells := m.cells.filter (fun c => decide (c.1 < n)) }

/-- A memory every byte of which is a free value (70_reset R162; log 9, log 11). -/
def Memory.anyBytes (size k : Nat) : Memory :=
  ({ size := size, cells := [] } : Memory).setList 0 ((List.range size).map (fun i => Config.freeByte (k + i)))

/-- `CAP`: the physical capacity of `BUF` (00_scope R4; log 1). -/
def State.cap (s : State) : Nat := s.buf.size

/-- The width `LW` in bits of lengths and cursors: the least with `2^LW > CAP` (00_scope R4). -/
def lenWidth (cap : Nat) : Nat := if cap = 0 then 0 else Nat.log2 cap + 1

/-- A free number of `LW` bits (log 9). -/
def freeLen (s : State) (k : Nat) : Nat := Config.freeNat k % 2 ^ lenWidth s.cap

/-- `BUF[i] <- b` by the core or the host; an index outside `BUF` does not exist (20_memory R30; log 12). -/
def storeBuf (i : Nat) (b : Byte) (s : State) : Host.Outcome State Fault Refusal :=
  if i < s.cap then .next { s with buf := s.buf.set i b } else .fault .bufRange

/-! ### Acceptance, completion, the exception, reset -/

/-- The accept line of both commands (40_encoder R70, 41_decoder R90): latch `len`, set and clear the status
fields. `LEN_OUT` is unspecified until completion (10_state R21; log 9). -/
def acceptCommand (n : Nat) (s : State) : State :=
  { s with
    len := n, busy := true, done := false, err := false, cause := 0
    lenOut := freeLen s s.draws, draws := s.draws + 1 }

/-- The working registers take free values (70_reset R171, 10_state R25; log 9, log 10). -/
def forgetRegisters (s : State) : State :=
  { s with
    rd := freeLen s s.draws, wr := freeLen s (s.draws + 1), len := freeLen s (s.draws + 2)
    cur := Config.freeByte s.draws, cnt := Config.freeByte (s.draws + 1), val := Config.freeByte (s.draws + 2)
    draws := s.draws + 3 }

/-- The finish line of both commands (40_encoder R77, 41_decoder R100).
What the working registers hold afterwards the definition does not say (70_reset R171; log 10). -/
def finishCommand (s : State) : State :=
  forgetRegisters { s with lenOut := s.wr, busy := false, done := true, phase := .idle }

/-- TAKING THE EXCEPTION: error completion (60_exceptions R146). Nothing else changes.
Nothing is saved and nothing returns: the next accepted `START` clears the fields (R147). -/
def raiseError (code : BitVec 2) (s : State) : State :=
  { s with lenOut := 0, err := true, cause := code, busy := false, done := true, phase := .idle }

/-- The `CAUSE` code of `AllocationFailure` (60_exceptions R140). -/
def causeAllocationFailure : BitVec 2 := 1

/-- Release of the scratch buffer (41_decoder R99, 20_memory R46). -/
def releaseScratch (s : State) : State := { s with scr := none }

/-- `RST` (70_reset R160, R162; 10_state R25): `phase` and status at their reset values, a running command
abandoned, working registers and `BUF` unspecified, no `SCR` (log 11). -/
def resetEvent (s : State) : State :=
  { forgetRegisters s with
    phase := .idle, busy := false, done := false, err := false, cause := 0, lenOut := 0, scr := none
    buf := Memory.anyBytes s.buf.size (s.draws + 3), draws := s.draws + 3 + s.buf.size }

end Sys2Proof.Machine
end

