-- ==== Sys2Proof/Machine/Operands.lean ====
section
/-! DEFINITION. The operands: the encoder's count (40_encoder R73) and the decoder's two-byte window
(41_decoder R95). -/

namespace Sys2Proof.Machine

/-- `MAXRUN` (00_scope R4): the largest run count one token carries. -/
def maxRun : Nat := 255

/-- How many bytes from index `i` on equal `v`, at most `room` of them and none at an index `>= len`
(40_encoder R73). The cap is tested before the read (92 D20). -/
def scanMore (m : Memory) (len : Nat) (v : Byte) : Nat → Nat → Nat
  | 0, _ => 0
  | room + 1, i => if i < len ∧ m.get i = v then scanMore m len v room (i + 1) + 1 else 0

/-- The saturating count of the scan at `rd` (40_encoder R73, 42_arithmetic R111). -/
def scanCount (m : Memory) (len rd : Nat) : Nat := scanMore m len (m.get rd) (maxRun - 1) (rd + 1) + 1

/-- The bytes the parser looks at: the current one, and the next if it exists (30_encoding R55, R56). -/
def tokenWindow (m : Memory) (len rd : Nat) : List Byte :=
  if rd + 1 < len then [m.get rd, m.get (rd + 1)] else [m.get rd]

end Sys2Proof.Machine
end

