-- ==== Sys2Proof/Machine/Flags.lean ====
section
/-! DEFINITION. The conditions of 10_state R22, computed and used inside one step; there are no stored flags. -/

namespace Sys2Proof.Machine

/-- The encoder's condition `cnt > 1` (40_encoder R74). -/
def moreThanOne (cnt : Byte) : Bool := decide (1 < cnt.toNat)

/-- The parser's predicate `is_run(rd)` (30_encoding R55). -/
def isRun (m : Memory) (len rd : Nat) : Bool := decide (rd + 1 < len) && topBit (m.get (rd + 1))

/-- The overrun check of a decoder step that writes `n` bytes (41_decoder R105). -/
def overruns (n : Nat) (s : State) : Bool := decide (s.cap < s.wr + n)

/-- `BUSY` as R21 defines it. -/
def busyOf (p : Phase) : Bool := decide (p ≠ .idle)

end Sys2Proof.Machine
end

