-- ==== Sys2Proof/Machine/Encoder.lean ====
section
/-! DEFINITION. One encoder step: scan, emit a token in place, advance (40_encoder R73 to R76). -/

namespace Sys2Proof.Machine

/-- Emit a run token (40_encoder R74): count byte first, then the flagged value (92 D19). -/
def emitRun (s : State) : Host.Outcome State Fault Refusal :=
  andThen (storeBuf s.wr s.cnt s) fun s1 =>
  andThen (storeBuf (s1.wr + 1) (orFlag s1.cur) s1) fun s2 =>
  .next { s2 with wr := s2.wr + 2 }

/-- Emit a literal token (40_encoder R75): the top bit is forced off. -/
def emitLit (s : State) : Host.Outcome State Fault Refusal :=
  andThen (storeBuf s.wr (andMask s.cur) s) fun s1 => .next { s1 with wr := s1.wr + 1 }

/-- The scan loads `cur` and `cnt` (40_encoder R73). -/
def loadCount (s : State) : State :=
  { s with cur := s.buf.get s.rd, cnt := BitVec.ofNat 8 (scanCount s.buf s.len s.rd) }

/-- One encoder step (40_encoder R73 to R76). Where `len` exceeds `CAP`, which no run reaches, the scan's bytes
do not exist (log 12). -/
def encoderStep (s : State) : Host.Outcome State Fault Refusal :=
  if s.cap < s.len then .fault .bufRange
  else
    let s1 := loadCount s
    andThen (if moreThanOne s1.cnt then emitRun s1 else emitLit s1) fun s2 =>
    .next { s2 with rd := s2.rd + s2.cnt.toNat }

end Sys2Proof.Machine
end

