-- ==== Sys2Proof/Machine/Tokens.lean ====
section
/-! DEFINITION. The meanings of the two stream tokens, as the decoder performs them. -/

namespace Sys2Proof.Machine

/-- `RUN c, v` (41_decoder R96): `cnt <- c`, `val <- v`, `v` written `c` times at `wr`, `wr += c`, `rd += 2`.
`DestOverrun` if `wr + c > CAP` (R105), before any write. -/
def execRun (c : Byte) (v : BitVec 7) (s : State) : Host.Outcome State Fault Refusal :=
  if overruns c.toNat s then .fault .destOverrun
  else .next { s with
    cur := c, cnt := c, val := valueByte v
    buf := s.buf.fillRun s.wr (valueByte v) c.toNat
    wr := s.wr + c.toNat, rd := s.rd + 2 }

/-- `LIT b` (41_decoder R97): `b` written as it is at `wr`, both cursors advance by 1.
`DestOverrun` if `wr + 1 > CAP` (R105). -/
def execLit (b : Byte) (s : State) : Host.Outcome State Fault Refusal :=
  if overruns 1 s then .fault .destOverrun
  else .next { s with cur := b, buf := s.buf.set s.wr b, wr := s.wr + 1, rd := s.rd + 1 }

/-- One decoder step (41_decoder R95): fetch the window from `SCR`, classify, perform the token.
Where `SCR` does not reach `len`, the bytes do not exist (10_state R12; log 12). -/
def decoderStep (s : State) : Host.Outcome State Fault Refusal :=
  match s.scr with
  | none => .fault .scratchRange
  | some m =>
    if m.size < s.len then .fault .scratchRange
    else match decodeToken (tokenWindow m s.len s.rd) with
      | .ok (.run c v, _) => execRun c v s
      | .ok (.lit b, _) => execLit b s
      | _ => .fault .scratchRange

/-- The snapshot and the initialisation (41_decoder R93, R94): one algorithmic step (92 D1). -/
def snapshotStep (s : State) : State :=
  { s with scr := some (s.buf.snapshot s.len), phase := .dec, rd := 0, wr := 0 }

end Sys2Proof.Machine
end

