-- ==== Sys2Proof/Machine/Commands.lean ====
section
/-! DEFINITION. The two host commands: acceptance, the algorithmic steps of a running command, and the whole
command as one transition (92 D1). -/

namespace Sys2Proof.Machine

/-- One algorithmic step of the running command (10_state R19 (b); 40_encoder R76; 41_decoder R98).
When `rd` has reached `len`, the step completes the command; when no command runs, there is nothing to do. -/
def coreStep (s : State) : Host.Outcome State Fault Refusal :=
  match s.phase with
  | .idle => .next s
  | .enc => if s.rd < s.len then encoderStep s else .next (finishCommand s)
  | .decCopy => .next (snapshotStep s)
  | .dec => if s.rd < s.len then decoderStep s else .next (finishCommand (releaseScratch s))

/-- Run the command to completion, at most `k` algorithmic steps (42_arithmetic R117 bounds them). -/
def runToEnd : Nat → State → Host.Outcome State Fault Refusal
  | 0, s => .next s
  | k + 1, s => if s.phase = .idle then .next s else andThen (coreStep s) (runToEnd k)

/-- Acceptance of `ENCODE n` (40_encoder R70 to R72). -/
def beginEncode (n : Nat) (s : State) : State :=
  let s1 := { acceptCommand n s with phase := .enc }
  if n = 0 then finishCommand { s1 with wr := 0 } else { s1 with rd := 0, wr := 0 }

/-- Acceptance of `DECODE n` (41_decoder R90, R92, R104): an empty stream completes without asking for scratch;
no scratch is `AllocationFailure`. -/
def beginDecode (n : Nat) (s : State) : State :=
  let s1 := acceptCommand n s
  if n = 0 then finishCommand { s1 with wr := 0 }
  else if s.scratchOk then { s1 with phase := .decCopy }
  else raiseError causeAllocationFailure s1

/-- The checks before acceptance, in the order of 60_exceptions R145: a `START` while a command runs is not
accepted and changes nothing (R153); `LEN_IN > CAP` is refused (R143 (a)). -/
def ifAccepted (n : Nat) (s : State) (f : State → Host.Outcome State Fault Refusal) :
    Host.Outcome State Fault Refusal :=
  if s.phase ≠ .idle then .next s
  else if s.cap < n then .refused .lenRange
  else f s

/-- `ENCODE n` (40_encoder R70): the whole command as one transition, at most `n` encoder steps and the finish. -/
def execEncode (n : Nat) (s : State) : Host.Outcome State Fault Refusal :=
  ifAccepted n s fun s => runToEnd (n + 1) (beginEncode n s)

/-- `DECODE n` (41_decoder R90): the whole command as one transition, the snapshot, at most `n` decoder steps and
the finish. -/
def execDecode (n : Nat) (s : State) : Host.Outcome State Fault Refusal :=
  ifAccepted n s fun s => runToEnd (n + 2) (beginDecode n s)

/-- A command shown stepwise: its acceptance alone (92 D1; log 5). The following steps of the core carry it out. -/
def launchCommand (op : BitVec 1) (n : Nat) (s : State) : Host.Outcome State Fault Refusal :=
  ifAccepted n s fun s => .next (if op = 0#1 then beginEncode n s else beginDecode n s)

end Sys2Proof.Machine
end

