-- ==== Sys2Proof/Machine/Dispatch.lean ====
section
/-! DEFINITION. One arm per instruction (spec/opcode_table.json). -/

namespace Sys2Proof.Machine

def exec (i : Instr) (s : State) : Host.Outcome State Fault Refusal :=
  match i with
  | .encode lenIn => Sys2Proof.Machine.execEncode lenIn s
  | .decode lenIn => Sys2Proof.Machine.execDecode lenIn s
  | .run c v => Sys2Proof.Machine.execRun c v s
  | .lit b => Sys2Proof.Machine.execLit b s

end Sys2Proof.Machine
end

