-- ==== Sys2Proof/Machine/Moves.lean ====
section
/-! DEFINITION. The moves of the host and the environment (60_exceptions R152; 10_state R27), and the placing of
an instruction where the next step finds it. -/

namespace Sys2Proof.Machine

/-- The host writes a byte of `BUF`: only while the core is idle (20_memory R43; log 13). -/
def hostWrite (i : Nat) (b : Byte) (s : State) : Host.Outcome State Fault Refusal :=
  if s.phase ≠ .idle then .refused .hostOwnership else storeBuf i b s

/-- Whether a number fits the `LW` bits of a length field of this machine (00_scope R4). -/
def fitsLen (n : Nat) (s : State) : Bool := decide (n < 2 ^ lenWidth s.cap)

/-- The host writes `OP` and `LEN_IN` and presents `START` (10_state R20).
`LEN_IN` has `LW` bits: a larger number is no value of the field (00_scope R4; log 18). -/
def presentCommand (op : BitVec 1) (lenIn : Nat) (stepwise : Bool) (s : State) : Host.Outcome State Fault Refusal :=
  if fitsLen lenIn s then .next { s with op := op, lenIn := lenIn, start := true, stepwise := stepwise }
  else .refused .lenInTooWide

/-- One move (log 6). Writes of the command fields never touch the running command: `len` was latched
(10_state R27). -/
def takeMove (e : Event) (s : State) : Host.Outcome State Fault Refusal :=
  match e with
  | .hostWrite i b => hostWrite i b s
  | .command op lenIn stepwise => presentCommand op lenIn stepwise s
  | .scratch ok => .next { s with scratchOk := ok }
  | .reset => .next (resetEvent s)
  | .coreTurn => coreStep s

/-- The core's step when no `START` is pending: the next move of the script, or else the core's own turn. -/
def moveStep (s : State) : Host.Outcome State Fault Refusal :=
  match s.script with
  | [] => coreStep s
  | e :: rest => takeMove e { s with script := rest }

/-- An instruction's words placed where the next step takes them (log 14): a command in the command fields of an
idle core with `START` pending, a token at the front of the stream of a running `DECODE`.
A command word whose `LEN_IN` does not fit the machine's `LW` bits is no word of it: nothing is placed (log 18). -/
def placeWords (w : Words) (s : State) : State :=
  match w with
  | .command w =>
    if fitsLen (commandLen w) s then
      { s with
        phase := .idle, busy := false, start := true, stepwise := false
        op := commandOp w, lenIn := commandLen w }
    else s
  | .stream bytes =>
    { s with
      phase := .dec, busy := true, start := false, script := .coreTurn :: s.script
      scr := some (Memory.ofBytes bytes.length bytes), rd := 0, len := bytes.length }

end Sys2Proof.Machine
end

