-- ==== Sys2Proof/Machine/Step.lean ====
section
/-! DEFINITION. One step of the machine: it calls the meanings and the moves, and computes nothing itself. -/

namespace Sys2Proof.Machine

/-- One step. A pending `START` is taken first: the command of the fields `OP` and `LEN_IN` runs whole, or is
only accepted when it is to be shown stepwise (log 5). Otherwise the next move is made (log 6). -/
def step (s : State) : Host.Outcome State Fault Refusal :=
  if s.start then
    if s.stepwise then launchCommand s.op s.lenIn { s with start := false }
    else exec (decodeCommand s.op s.lenIn) { s with start := false }
  else moveStep s

/-- `s` with the opcode table's number `w` of `nbits` bits placed so that the next step runs it (log 14). -/
def State.withFetchWord (s : State) (nbits w : Nat) : State := placeWords (tableWords nbits w) s

end Sys2Proof.Machine
end

