-- ==== Sys2Proof/Machine/Codec.lean ====
section
/-! DEFINITION. The two commands as pure functions on byte strings (40_encoder R78, 41_decoder R102), which the
claims compare the machine with. No meaning of an instruction calls them. -/

namespace Sys2Proof

/-- How many leading bytes equal `v`, at most `room` (40_encoder R78: the `k` of `Tok`, less one). -/
def leadCount (v : Byte) : Nat → List Byte → Nat
  | 0, _ => 0
  | _ + 1, [] => 0
  | room + 1, b :: rest => if b = v then leadCount v room rest + 1 else 0

/-- The token for `k` bytes `v` (40_encoder R78). -/
def tokenFor (v : Byte) (k : Nat) : Instr :=
  if 1 < k then .run (BitVec.ofNat 8 k) (valueBits v) else .lit (andMask v)

/-- `Tok` with a bound on the number of tokens, so that it is structural. -/
def tokUpTo : Nat → List Byte → List Instr
  | 0, _ => []
  | _ + 1, [] => []
  | f + 1, v :: rest => tokenFor v (leadCount v 254 rest + 1) :: tokUpTo f (rest.drop (leadCount v 254 rest))

/-- `Tok(B)` (40_encoder R78): the tokens the encoder emits for the raw bytes `B`. -/
def tok (B : List Byte) : List Instr := tokUpTo B.length B

/-- `Exp(S)` (41_decoder R102): the bytes the decoder writes for the stream `S`. -/
def expand : List Byte → List Byte
  | [] => []
  | [b] => [b]
  | b :: n :: rest => if topBit n then List.replicate b.toNat (andMask n) ++ expand rest else b :: expand (n :: rest)

/-- What performing one token writes (41_decoder R96, R97). -/
def tokenOut : Instr → List Byte
  | .encode _ => []
  | .decode _ => []
  | .run c v => List.replicate c.toNat (valueByte v)
  | .lit b => [b]

/-- How many bytes the encoder has consumed for a token it emits (40_encoder R76). -/
def tokenCount : Instr → Nat
  | .encode _ => 0
  | .decode _ => 0
  | .run c _ => c.toNat
  | .lit _ => 1

/-- 7-bit clean (00_scope R8): every byte has its top bit clear. -/
def clean7 (B : List Byte) : Prop := ∀ b ∈ B, topBit b = false

/-- `is_equal(A, B, n)` of the Integrity Checker (43_testbench_checker R130), outside the core (92 D28). -/
def isEqual (A B : List Byte) (n : Nat) : Bool := (List.range n).all fun i => decide (A[i]? = B[i]?)

end Sys2Proof
end

