-- ==== Sys2Proof/Safety.lean ====
section
/-! DEFINITION. What a legal state is, and the terms in which the claims speak of a command's end. -/

namespace Sys2Proof

open Machine

/-- What each phase promises of the cursors and of `SCR` (10_state R12, R13, R14; 40_encoder R79). -/
def phaseInv (s : State) : Prop :=
  match s.phase with
  | .idle => s.scr = none ∧ s.lenOut ≤ s.cap
  | .enc => s.scr = none ∧ s.wr ≤ s.rd ∧ s.rd ≤ s.len ∧ s.len ≤ s.cap
  | .decCopy => s.scr = none ∧ 1 ≤ s.len ∧ s.len ≤ s.cap
  | .dec => (∃ m, s.scr = some m ∧ m.wf ∧ m.size = s.len) ∧ s.rd ≤ s.len ∧ s.len ≤ s.cap ∧ s.wr ≤ s.cap

/-- A legal state of the core: what every step keeps and reset establishes. -/
structure Inv (s : State) : Prop where
  /-- `CAP >= 1` (00_scope R4). -/
  capPos : 1 ≤ s.cap
  /-- `BUF` is canonical. -/
  bufWf : s.buf.wf
  /-- `BUSY` is 1 exactly while a command runs (10_state R21). -/
  busyIff : s.busy = busyOf s.phase
  /-- `DONE` only after completion (10_state R21). -/
  doneIdle : s.done = true → s.phase = .idle
  /-- `ERR` and `CAUSE` go together, the codes 2 and 3 never occur, and with `ERR` comes `LEN_OUT = 0` (R21, R146). -/
  errCause : (s.err = false ∧ s.cause = 0) ∨ (s.err = true ∧ s.cause = causeAllocationFailure ∧ s.lenOut = 0 ∧ s.done = true)
  /-- Lengths and cursors fit `LW` bits (10_state R13 to R15, R21; 42_arithmetic R114). -/
  widths : s.rd < 2 ^ lenWidth s.cap ∧ s.wr < 2 ^ lenWidth s.cap ∧ s.len < 2 ^ lenWidth s.cap ∧ s.lenOut < 2 ^ lenWidth s.cap
  /-- The command field `LEN_IN` has `LW` bits (00_scope R4, 10_state R20). -/
  lenInWidth : s.lenIn < 2 ^ lenWidth s.cap
  /-- The cursors and `SCR`. -/
  phases : phaseInv s

/-- Normal completion (40_encoder R77, 41_decoder R100): the status fields with the result `n`. -/
def completed (t : State) (n : Nat) : Prop :=
  t.lenOut = n ∧ t.err = false ∧ t.cause = 0 ∧ t.busy = false ∧ t.done = true ∧ t.phase = .idle

/-- What a command leaves alone: `CAP`, the command fields, the `ScratchAvail` answer and the pending moves. -/
def commandFrame (s t : State) : Prop :=
  t.buf.size = s.buf.size ∧ t.op = s.op ∧ t.lenIn = s.lenIn ∧ t.start = s.start ∧ t.stepwise = s.stepwise ∧
    t.scratchOk = s.scratchOk ∧ t.script = s.script

/-- `BUF` starts with the bytes `out`, and every byte behind them is as it was in `s` (40_encoder R80, 41_decoder R106). -/
def prefixWritten (s t : State) (out : List Byte) : Prop :=
  t.buf.slice 0 out.length = out ∧ (∀ i, out.length ≤ i → t.buf.get i = s.buf.get i) ∧ t.buf.wf

/-- Perform the tokens of a program in order (42_arithmetic R120). -/
def performAll : List Instr → State → Host.Outcome State Fault Refusal
  | [], s => .next s
  | t :: rest, s => andThen (exec t s) (performAll rest)

end Sys2Proof
end

