-- ==== Sys2Proof/Certificates/Slice0/Obligations.lean ====
section
/-! DEFINITION. What is to be proved of the model, each statement with the rules of spec/ it rests on. -/

open Sys2Proof Sys2Proof.Machine

/-! ### Encodings and the parser -/

/-- Words written out from the spec's encodings (30_encoding R51, R53, R55; 95 S4, V-D6, V-D16, V-D18).
The places of `OP` and `LEN_IN` in a command word are the model's choice (log 14); so are the rejection of a command
word with more than `LW` bits of `LEN_IN`, in the third clause, and its name (log 18). -/
def Obligations.SpecWordsDecode : Prop :=
  decode 10 (.command 0b1000) = .ok (.encode 4, []) ∧
  decode 10 (.command 0b111) = .ok (.decode 3, []) ∧
  decode 2 (.command 0b1000) = .error .lenInTooWide ∧
  decode 10 (.stream [0x03#8, 0x85#8, 0x09#8]) = .ok (.run 0x03#8 0x05#7, [0x09#8]) ∧
  decode 10 (.stream [0x09#8, 0xC8#8, 0x85#8]) = .ok (.run 0x09#8 0x48#7, [0x85#8]) ∧
  decode 10 (.stream [0x85#8, 0x05#8]) = .ok (.lit 0x85#8, [0x05#8]) ∧
  decode 10 (.stream [0x03#8]) = .ok (.lit 0x03#8, []) ∧
  decode 10 (.stream []) = .error .emptyWindow

/-- Every well-formed instruction, with every operand its encoding admits, is read back from its words
(30_encoding R51 to R53, R57). The layout of a command word is the model's choice (log 14). -/
def Obligations.DecodeOfEncode : Prop :=
  ∀ (lw : Nat) (i : Instr), i.wellFormed lw = true → decode lw (encode i) = .ok (i, [])

/-- A token in front of any stream is read back with the rest untouched, unless it is a literal whose next byte has
its top bit set (30_encoding R55, R60). -/
def Obligations.TokenDecodesInStream : Prop :=
  ∀ (t : Instr) (rest : List Byte), t.isToken = true →
    ((∃ b, t = .lit b) → ∀ n ∈ rest.head?, n.toNat ≤ 127) →
    decodeToken (tokenBytes t ++ rest) = .ok (t, rest)

/-- The parser is total (30_encoding R56): every non-empty byte string starts with exactly one token, whose bytes are
consumed together and from which no bit is lost. -/
def Obligations.ParserTotal : Prop :=
  ∀ (b : Byte) (bs : List Byte), ∃ t rest,
    decodeToken (b :: bs) = .ok (t, rest) ∧ t.isToken = true ∧ b :: bs = tokenBytes t ++ rest

/-- The predicate of 30_encoding R55: the token at `rd` is a run, two bytes long, exactly when a next byte exists and
has its top bit set; otherwise it is a literal, one byte long. -/
def Obligations.RunExactlyWhenNextByteFlagged : Prop :=
  ∀ (m : Memory) (len rd : Nat), rd < len →
    ∃ t rest, decodeToken (tokenWindow m len rd) = .ok (t, rest) ∧
      if rd + 1 < len ∧ 128 ≤ (m.get (rd + 1)).toNat then
        t = .run (m.get rd) ((m.get (rd + 1)).setWidth 7) ∧ (tokenBytes t).length = 2
      else t = .lit (m.get rd) ∧ (tokenBytes t).length = 1

/-- The bit operations (42_arithmetic R112), with the numeric checks of the rule. -/
def Obligations.BitOperations : Prop :=
  (∀ x : Byte,
    (orFlag x).getLsbD 7 = true ∧ (∀ j < 7, (orFlag x).getLsbD j = x.getLsbD j) ∧
    (andMask x).getLsbD 7 = false ∧ (∀ j < 7, (andMask x).getLsbD j = x.getLsbD j) ∧
    (topBit x = true ↔ 128 ≤ x.toNat) ∧
    andMask (orFlag x) = andMask x ∧
    (x.toNat ≤ 127 → andMask (orFlag x) = x ∧ andMask x = x)) ∧
  orFlag 0x41#8 = 0xC1#8 ∧ orFlag 0x05#8 = 0x85#8 ∧ andMask 0x09#8 = 0x09#8

/-- Every stream the encoder produces is well-formed (30_encoding R58 (c)). -/
def Obligations.CanonicalStreamsWellFormed : Prop :=
  ∀ (B : List Byte), ∀ t ∈ tok B, t.tokenWellFormed = true

/-- A well-formed stream has one decomposition into well-formed tokens (30_encoding R63). -/
def Obligations.WellFormedStreamDecomposesOnce : Prop :=
  ∀ (T U : List Instr), (∀ t ∈ T, t.tokenWellFormed = true) → (∀ u ∈ U, u.tokenWellFormed = true) →
    asm T = asm U → T = U

/-! ### The stream tokens -/

/-- `RUN c, v` completes wherever its bytes fit `BUF`, with the effect of 41_decoder R96 and its frame. -/
def Obligations.RunPerformed : Prop :=
  ∀ (c : Byte) (v : BitVec 7) (s : State), s.buf.wf → s.wr + c.toNat ≤ s.cap →
    ∃ t, exec (.run c v) s = .next t ∧
      t.cnt = c ∧ t.val = v.setWidth 8 ∧ t.wr = s.wr + c.toNat ∧ t.rd = s.rd + 2 ∧
      (∀ i, t.buf.get i = if s.wr ≤ i ∧ i < s.wr + c.toNat then v.setWidth 8 else s.buf.get i) ∧
      t.buf.wf ∧ t.buf.size = s.buf.size ∧
      t = { s with cur := c, cnt := t.cnt, val := t.val, wr := t.wr, rd := t.rd, buf := t.buf }

/-- `LIT b` completes wherever its byte fits `BUF`, with the effect of 41_decoder R97 and its frame: all eight bits
are written. -/
def Obligations.LitPerformed : Prop :=
  ∀ (b : Byte) (s : State), s.buf.wf → s.wr + 1 ≤ s.cap →
    ∃ t, exec (.lit b) s = .next t ∧
      t.wr = s.wr + 1 ∧ t.rd = s.rd + 1 ∧
      (∀ i, t.buf.get i = if i = s.wr then b else s.buf.get i) ∧
      t.buf.wf ∧ t.buf.size = s.buf.size ∧
      t = { s with cur := b, wr := t.wr, rd := t.rd, buf := t.buf }

/-- One decoder step, fetch and effect (41_decoder R96, R97, with the classification of R95 and the overrun of R105). -/
def Obligations.DecoderStepPerformsToken : Prop :=
  ∀ (s : State) (m : Memory), s.phase = .dec → s.scr = some m → m.size = s.len → s.rd < s.len → s.buf.wf →
    if s.rd + 1 < s.len ∧ 128 ≤ (m.get (s.rd + 1)).toNat then
      if s.cap < s.wr + (m.get s.rd).toNat then coreStep s = .fault .destOverrun
      else ∃ t, coreStep s = .next t ∧
        t.cnt = m.get s.rd ∧ t.val = m.get (s.rd + 1) &&& 0x7F#8 ∧
        t.wr = s.wr + (m.get s.rd).toNat ∧ t.rd = s.rd + 2 ∧
        (∀ i, t.buf.get i =
          if s.wr ≤ i ∧ i < s.wr + (m.get s.rd).toNat then m.get (s.rd + 1) &&& 0x7F#8 else s.buf.get i) ∧
        t.buf.wf ∧ t.buf.size = s.buf.size ∧
        t = { s with cur := m.get s.rd, cnt := t.cnt, val := t.val, wr := t.wr, rd := t.rd, buf := t.buf }
    else
      if s.cap < s.wr + 1 then coreStep s = .fault .destOverrun
      else ∃ t, coreStep s = .next t ∧
        t.wr = s.wr + 1 ∧ t.rd = s.rd + 1 ∧
        (∀ i, t.buf.get i = if i = s.wr then m.get s.rd else s.buf.get i) ∧
        t.buf.wf ∧ t.buf.size = s.buf.size ∧
        t = { s with cur := m.get s.rd, wr := t.wr, rd := t.rd, buf := t.buf }

/-! ### The algorithmic steps of the commands -/

/-- One encoder step (40_encoder R74, R75): with `k` the saturated count of the scan (R73), a run token of two bytes
for `k > 1`, a literal token of one byte otherwise. -/
def Obligations.EncoderStepEmitsToken : Prop :=
  ∀ (s : State), s.phase = .enc → s.buf.wf → s.wr ≤ s.rd → s.rd < s.len → s.len ≤ s.cap →
    ∃ t k, coreStep s = .next t ∧
      1 ≤ k ∧ k ≤ 255 ∧ s.rd + k ≤ s.len ∧ (∀ j < k, s.buf.get (s.rd + j) = s.buf.get s.rd) ∧
      (k = 255 ∨ s.rd + k = s.len ∨ s.buf.get (s.rd + k) ≠ s.buf.get s.rd) ∧
      t.cur = s.buf.get s.rd ∧ t.cnt.toNat = k ∧ t.rd = s.rd + k ∧
      (if 1 < k then
        t.wr = s.wr + 2 ∧ ∀ i, t.buf.get i =
          if i = s.wr then BitVec.ofNat 8 k
          else if i = s.wr + 1 then s.buf.get s.rd ||| 0x80#8 else s.buf.get i
      else t.wr = s.wr + 1 ∧ ∀ i, t.buf.get i = if i = s.wr then s.buf.get s.rd &&& 0x7F#8 else s.buf.get i) ∧
      t.buf.wf ∧ t.buf.size = s.buf.size ∧
      t = { s with cur := t.cur, cnt := t.cnt, wr := t.wr, rd := t.rd, buf := t.buf }

/-- The snapshot and the initialisation (41_decoder R93, R94): one step, before any write to `BUF`. -/
def Obligations.SnapshotCopiesStream : Prop :=
  ∀ (s : State), s.phase = .decCopy → s.buf.wf →
    ∃ t m, coreStep s = .next t ∧ t.scr = some m ∧ m.size = s.len ∧ m.wf ∧
      (∀ i < s.len, m.get i = s.buf.get i) ∧ t.rd = 0 ∧ t.wr = 0 ∧
      t = { s with scr := t.scr, phase := .dec, rd := t.rd, wr := t.wr }

/-- Where `rd` has reached `len` the running command completes with `LEN_OUT = wr`; a `DECODE` releases the scratch
(41_decoder R99, R100; 40_encoder R77). `ERR` stays as it is. -/
def Obligations.CommandCompletes : Prop :=
  ∀ (s : State), s.rd = s.len → (s.phase = .enc ∨ s.phase = .dec) →
    ∃ t, coreStep s = .next t ∧ t.lenOut = s.wr ∧ t.busy = false ∧ t.done = true ∧ t.err = s.err ∧
      t.cause = s.cause ∧ t.phase = .idle ∧ t.buf = s.buf ∧ (s.phase = .dec → t.scr = none) ∧
      (s.phase = .enc → t.scr = s.scr) ∧ commandFrame s t

/-- The decoder's tokens come from `SCR` alone, which its steps do not write (20_memory R42, R40): with other
bytes in `BUF` a step does the same to every register, cursor and status field, or faults the same, and every byte of
`BUF` is either written, the same byte both times, or left as it was both times. -/
def Obligations.DecoderReadsOnlyScratch : Prop :=
  ∀ (s : State) (b : Memory), s.phase = .dec → b.size = s.buf.size →
    (∀ t, coreStep s = .next t →
      (∃ t', coreStep { s with buf := b } = .next t' ∧ t = { t' with buf := t.buf } ∧ t'.buf.size = t.buf.size ∧
        (s.buf.wf → b.wf → ∀ i,
          t.buf.get i = t'.buf.get i ∨ t.buf.get i = s.buf.get i ∧ t'.buf.get i = b.get i)) ∧
      (s.rd < s.len → t.scr = s.scr)) ∧
    (∀ f, coreStep s = .fault f → coreStep { s with buf := b } = .fault f)

/-- What the host writes into the command fields while a command runs has no effect on it (10_state R27). -/
def Obligations.CommandFieldsDoNotDisturb : Prop :=
  ∀ (s : State) (op : BitVec 1) (n : Nat) (b w : Bool),
    coreStep { s with op := op, lenIn := n, start := b, stepwise := w } =
      andThen (coreStep s) fun t => .next { t with op := op, lenIn := n, start := b, stepwise := w }

/-! ### ENCODE -/

/-- `Tok` is the recursion of 40_encoder R78: the largest `k` in `1..255` of equal leading bytes, one token, the rest. -/
def Obligations.TokTakesLargestCount : Prop :=
  tok [] = [] ∧
  ∀ (v : Byte) (B : List Byte), ∃ k, 1 ≤ k ∧ k ≤ 255 ∧ k ≤ (v :: B).length ∧
    (v :: B).take k = List.replicate k v ∧
    (∀ j, k < j → j ≤ 255 → j ≤ (v :: B).length → (v :: B).take j ≠ List.replicate j v) ∧
    tok (v :: B) =
      (if 1 < k then .run (BitVec.ofNat 8 k) (v.setWidth 7) else .lit (v &&& 0x7F#8)) :: tok ((v :: B).drop k)

/-- `ENCODE n` as a function (40_encoder R78): it completes with `LEN_OUT = |Asm(Tok(B))|`, the stream in the prefix of
`BUF`, everything behind it unchanged and `ERR = 0`. What the working registers hold afterwards is not said (R171). -/
def Obligations.EncodeIsTok : Prop :=
  ∀ (s : State) (n : Nat), s.phase = .idle → n ≤ s.cap → s.buf.wf →
    ∃ t, exec (.encode n) s = .next t ∧
      completed t (asm (tok (s.buf.slice 0 n))).length ∧
      prefixWritten s t (asm (tok (s.buf.slice 0 n))) ∧
      commandFrame s t ∧ t.scr = s.scr

/-- Non-expansion (42_arithmetic R115): for any input, `encoded_length <= original_length`, with equality exactly when
every step counts at most 2, and the lower bounds of the rule. -/
def Obligations.EncodeNeverGrows : Prop :=
  ∀ (s : State) (n : Nat), s.phase = .idle → n ≤ s.cap → s.buf.wf →
    ∃ t, exec (.encode n) s = .next t ∧ t.lenOut ≤ n ∧
      (t.lenOut = n ↔ ∀ u ∈ tok (s.buf.slice 0 n), tokenCount u ≤ 2) ∧
      2 * (n / 255) ≤ t.lenOut ∧ (1 ≤ n → 1 ≤ t.lenOut)

/-- How a long sequence of equal bytes is cut (30_encoding R62, 40_encoder R82). -/
def Obligations.LongRunsAreCut : Prop :=
  ∀ (n : Nat) (v : Byte),
    tok (List.replicate n v) =
      List.replicate (n / 255) (.run 255#8 (v.setWidth 7)) ++
        (if n % 255 = 0 then []
         else if n % 255 = 1 then [.lit (v &&& 0x7F#8)]
         else [.run (BitVec.ofNat 8 (n % 255)) (v.setWidth 7)])

/-! ### DECODE -/

/-- `DECODE n` has exactly the four outcomes of 41_decoder R102. What the working registers hold afterwards is not
said (R171). -/
def Obligations.DecodeIsExp : Prop :=
  ∀ (s : State) (n : Nat), s.phase = .idle → n ≤ s.cap → s.buf.wf →
    if n = 0 then
      ∃ t, exec (.decode n) s = .next t ∧ completed t 0 ∧ t.buf = s.buf ∧ commandFrame s t ∧ t.scr = s.scr
    else if s.scratchOk = false then
      ∃ t, exec (.decode n) s = .next t ∧ t.lenOut = 0 ∧ t.err = true ∧ t.cause = 1 ∧ t.busy = false ∧ t.done = true ∧
        t.phase = .idle ∧ t.buf = s.buf ∧ commandFrame s t ∧ t.scr = s.scr
    else if (expand (s.buf.slice 0 n)).length ≤ s.cap then
      ∃ t, exec (.decode n) s = .next t ∧
        completed t (expand (s.buf.slice 0 n)).length ∧
        prefixWritten s t (expand (s.buf.slice 0 n)) ∧
        commandFrame s t ∧ t.scr = none
    else exec (.decode n) s = .fault .destOverrun

/-- The expansion is what the parsed tokens write, one after the other (41_decoder R96, R97, R102). -/
def Obligations.ExpIsTokensPerformed : Prop :=
  ∀ (S : List Byte), expand S = (parseStream S).flatMap tokenOut

/-- Parser correctness on parse-safe streams (42_arithmetic R120): the decoder steps on `Asm(T)` perform exactly the
tokens of `T`, in order, and then complete. -/
def Obligations.ParserRecoversParseSafeStream : Prop :=
  ∀ (T : List Instr) (s : State) (m : Memory), parseSafe T = true → s.phase = .dec → s.rd = 0 → s.scr = some m →
    m.size = s.len → m.slice 0 s.len = asm T →
    parseStream (asm T) = T ∧
    runToEnd (T.length + 1) s = andThen (performAll T s) fun t => .next (finishCommand (releaseScratch t))

/-- The size of the decoder's output (42_arithmetic R118): both bounds, that both are reached, and the lower bound for
parse-safe streams. -/
def Obligations.ExpansionBounds : Prop :=
  (∀ S : List Byte, (expand S).length ≤ 255 * (S.length / 2) + S.length % 2 ∧ S.length % 2 ≤ (expand S).length) ∧
  (∀ (k : Nat) (v : BitVec 7) (b : Byte),
    (expand (List.replicate k [0xFF#8, orFlag (valueByte v)]).flatten).length = 255 * k ∧
    (expand ((List.replicate k [0xFF#8, orFlag (valueByte v)]).flatten ++ [b])).length = 255 * k + 1 ∧
    (expand (List.replicate k [0x00#8, orFlag (valueByte v)]).flatten).length = 0 ∧
    (expand ((List.replicate k [0x00#8, orFlag (valueByte v)]).flatten ++ [b])).length = 1) ∧
  (∀ T : List Instr, parseSafe T = true → (asm T).length ≤ (expand (asm T)).length)

/-! ### Laws of both -/

/-- The restricted round trip (42_arithmetic R116 (a)): for 7-bit clean bytes whose token list has no literal directly
followed by a run of 128 or more, `ENCODE` then `DECODE` gives the bytes back. -/
def Obligations.RoundTrip : Prop :=
  ∀ (s : State) (n : Nat), s.phase = .idle → n ≤ s.cap → s.buf.wf → s.scratchOk = true →
    clean7 (s.buf.slice 0 n) → parseSafe (tok (s.buf.slice 0 n)) = true →
    ∃ t u, exec (.encode n) s = .next t ∧ exec (.decode t.lenOut) t = .next u ∧
      completed u n ∧ u.buf.slice 0 n = s.buf.slice 0 n

/-- The simple sufficient case of 42_arithmetic R116: no 128 consecutive equal bytes. -/
def Obligations.ShortRunsAreParseSafe : Prop :=
  ∀ (B : List Byte), (∀ i v, i + 128 ≤ B.length → (B.drop i).take 128 ≠ List.replicate 128 v) →
    parseSafe (tok B) = true

/-- The misparse (30_encoding R60, 41_decoder R107): a clean byte before 128 to 255 equal other clean bytes does not
come back, and what comes back is fully determined. -/
def Obligations.LongRunAfterLiteralIsMisparsed : Prop :=
  ∀ (l w : Byte) (c : Nat), l.toNat ≤ 127 → w.toNat ≤ 127 → l ≠ w → 128 ≤ c → c ≤ 255 →
    asm (tok (l :: List.replicate c w)) = [l, BitVec.ofNat 8 c, w ||| 0x80#8] ∧
    expand [l, BitVec.ofNat 8 c, w ||| 0x80#8] =
      List.replicate l.toNat (BitVec.ofNat 8 (c - 128)) ++ [w ||| 0x80#8] ∧
    expand (asm (tok (l :: List.replicate c w))) ≠ l :: List.replicate c w

/-- Decoding its own encoding can overrun a buffer that held the raw bytes exactly (42_arithmetic R121: `7F`, 128 times
`05`, 128 times `06` in a `BUF` of 257 bytes), although the bytes are 7-bit clean: from every such state. -/
def Obligations.OwnEncodingCanOverrun : Prop :=
  ∀ (s : State), s.phase = .idle → s.buf.wf → s.cap = 257 → s.scratchOk = true →
    s.buf.slice 0 257 = [0x7F#8] ++ List.replicate 128 0x05#8 ++ List.replicate 128 0x06#8 →
    ∃ t, exec (.encode 257) s = .next t ∧
      completed t 5 ∧ prefixWritten s t [0x7F#8, 0x80#8, 0x85#8, 0x80#8, 0x86#8] ∧
      exec (.decode t.lenOut) t = .fault .destOverrun

/-- Determinism and no history (42_arithmetic R119, 10_state R10): the outcome of a command depends on `CAP`, the
operand, the operand's bytes of `BUF` and `ScratchAvail` only, and no byte at or behind both lengths changes. -/
def Obligations.CommandsDependOnlyOnInput : Prop :=
  ∀ (s s' : State) (n : Nat) (i : Instr), i = .encode n ∨ i = .decode n →
    s.phase = .idle → s'.phase = .idle → n ≤ s.cap → s'.cap = s.cap → s'.scratchOk = s.scratchOk →
    s.buf.wf → s'.buf.wf → (∀ j < n, s'.buf.get j = s.buf.get j) →
    match exec i s, exec i s' with
    | .next t, .next t' =>
      t'.lenOut = t.lenOut ∧ t'.err = t.err ∧ t'.cause = t.cause ∧
        t'.buf.slice 0 t.lenOut = t.buf.slice 0 t.lenOut ∧
        ∀ j, n ≤ j → t.lenOut ≤ j → t.buf.get j = s.buf.get j
    | .fault f, .fault f' => f' = f
    | _, _ => False

/-- How many tokens there can be (42_arithmetic R117): the encoder's and the parser's step counts. -/
def Obligations.TokenCountBounds : Prop :=
  (∀ B : List Byte, (tok B).length ≤ B.length ∧ B.length ≤ 255 * (tok B).length) ∧
  (∀ S : List Byte, (parseStream S).length ≤ S.length ∧ S.length ≤ 2 * (parseStream S).length)

/-- The checker (43_testbench_checker R130, R132): byte-wise equality of equal-length buffers, reflexive. -/
def Obligations.CheckerIsEquality : Prop :=
  (∀ A B : List Byte, A.length = B.length → (isEqual A B A.length = true ↔ A = B)) ∧
  (∀ (X : List Byte) (n : Nat), isEqual X X n = true)

/-! ### Acceptance, errors, reset, the host -/

/-- Error completion (60_exceptions R146): `AllocationFailure` changes the status fields and nothing else. The operand
was latched at acceptance before; `draws` is the model's own counter (log 9). -/
def Obligations.AllocationFailureCompletes : Prop :=
  ∀ (s : State) (n : Nat), s.phase = .idle → 0 < n → n ≤ s.cap → s.scratchOk = false →
    exec (.decode n) s = .next { s with
      len := n, lenOut := 0, err := true, cause := 1, busy := false, done := true, phase := .idle
      draws := s.draws + 1 }

/-- The model-level outcomes (60_exceptions R143): `LenRange` for either command, `DestOverrun` for either token. -/
def Obligations.LenRangeAndDestOverrun : Prop :=
  (∀ (s : State) (n : Nat), s.phase = .idle → s.cap < n →
    exec (.encode n) s = .refused .lenRange ∧ exec (.decode n) s = .refused .lenRange) ∧
  (∀ (s : State) (c : Byte) (v : BitVec 7), s.cap < s.wr + c.toNat → exec (.run c v) s = .fault .destOverrun) ∧
  (∀ (s : State) (b : Byte), s.cap < s.wr + 1 → exec (.lit b) s = .fault .destOverrun)

/-- `START` while a command runs is not accepted (60_exceptions R153): whatever the fields hold and however it would
be shown, the event is gone and nothing else has changed. -/
def Obligations.StartWhileBusyNotAccepted : Prop :=
  ∀ (s : State), s.phase ≠ .idle →
    (∀ n, exec (.encode n) s = .next s ∧ exec (.decode n) s = .next s) ∧
    (s.start = true → step s = .next { s with start := false })

/-- The empty commands (40_encoder R71, 41_decoder R104): whatever `ScratchAvail` says, `LEN_OUT = 0`, `ERR = 0`, and
no byte of `BUF` is written. -/
def Obligations.EmptyCommandsComplete : Prop :=
  ∀ (s : State) (i : Instr), i = .encode 0 ∨ i = .decode 0 → s.phase = .idle →
    ∃ t, exec i s = .next t ∧ completed t 0 ∧ t.buf = s.buf ∧ t.scr = s.scr ∧ commandFrame s t

/-- Acceptance (10_state R20, R21; 40_encoder R70, R72; 41_decoder R90), seen where a command is shown stepwise
(log 5): the operand latched, the status fields cleared and `BUSY` set, `BUF` untouched. -/
def Obligations.AcceptanceLatchesOperand : Prop :=
  ∀ (s : State), s.start = true → s.stepwise = true → s.phase = .idle → 0 < s.lenIn → s.lenIn ≤ s.cap →
    (s.op = 1#1 → s.scratchOk = true) →
    ∃ t, step s = .next t ∧ t.len = s.lenIn ∧ t.busy = true ∧ t.done = false ∧ t.err = false ∧ t.cause = 0 ∧
      t.buf = s.buf ∧ t.scr = s.scr ∧ t.start = false ∧
      (if s.op = 0#1 then t.phase = .enc ∧ t.rd = 0 ∧ t.wr = 0 else t.phase = .decCopy)

/-- The status fields hold from completion until the next `START` or `RST` (60_exceptions R147, 10_state R21). -/
def Obligations.StatusHoldsWhileIdle : Prop :=
  ∀ (s t : State), s.phase = .idle → s.start = false → s.script.head? ≠ some .reset → step s = .next t →
    t.busy = s.busy ∧ t.done = s.done ∧ t.err = s.err ∧ t.cause = s.cause ∧ t.lenOut = s.lenOut

/-- `RST`, in any phase (70_reset R160, R162): the status fields and `phase` take their reset values and a running
command is abandoned. What `BUF` and the working registers hold is not said (log 11). -/
def Obligations.RstAbandonsCommand : Prop :=
  ∀ (s : State) (rest : List Event), s.start = false → s.script = .reset :: rest →
    ∃ t, step s = .next t ∧ t.phase = .idle ∧ t.busy = false ∧ t.done = false ∧ t.err = false ∧ t.cause = 0 ∧
      t.lenOut = 0 ∧ t.scr = none ∧ t.buf.size = s.buf.size ∧ t.buf.wf ∧ t.script = rest

/-- The reset values the spec gives (10_state R25). -/
def Obligations.ResetValues : Prop :=
  State.reset.phase = .idle ∧ State.reset.busy = false ∧ State.reset.done = false ∧ State.reset.err = false ∧
    State.reset.cause = 0 ∧ State.reset.lenOut = 0 ∧ State.reset.scr = none

/-- The host's writes (20_memory R43, 10_state R27, 60_exceptions R152): one byte of `BUF` while the core is idle, no
move while a command runs. -/
def Obligations.HostWritesOnlyWhileIdle : Prop :=
  ∀ (s : State) (i : Nat) (b : Byte) (rest : List Event), s.start = false → s.script = .hostWrite i b :: rest →
    s.buf.wf → i < s.cap →
    if s.phase = .idle then
      ∃ t, step s = .next t ∧ (∀ j, t.buf.get j = if j = i then b else s.buf.get j) ∧ t.buf.wf ∧
        t.buf.size = s.buf.size ∧
        t = { s with buf := t.buf, script := rest }
    else step s = .refused .hostOwnership

/-! ### Steps and whole-machine rules -/

/-- A pending `START` runs the command of the fields: the step is `exec` of it, the event taken (10_state R20). -/
def Obligations.StepRunsCommand : Prop :=
  ∀ (s : State), s.start = true → s.stepwise = false →
    step s = exec (if s.op = 0#1 then .encode s.lenIn else .decode s.lenIn) { s with start := false }

/-- In the running `DECODE` the step is `exec` of the token the parser reads at `rd` (41_decoder R95), at the core's
turn. -/
def Obligations.StepRunsToken : Prop :=
  ∀ (s : State) (m : Memory) (i : Instr) (rest : List Byte), s.start = false → s.phase = .dec →
    s.scr = some m → s.len ≤ m.size → s.rd < s.len → decodeToken (tokenWindow m s.len s.rd) = .ok (i, rest) →
    (s.script = [] → step s = exec i s) ∧
    (∀ moves, s.script = .coreTurn :: moves → step s = exec i { s with script := moves })

/-- Shown stepwise, a command ends exactly as the whole command does as one transition, in at most `LEN_IN + 3` steps
(92 D1, 42_arithmetic R117; log 5). -/
def Obligations.StepwiseRefinesTransaction : Prop :=
  ∀ (s : State), s.start = true → s.stepwise = true → s.phase = .idle → s.script = [] →
    Host.Core.run Sys2Proof.core (s.lenIn + 3) s =
      exec (if s.op = 0#1 then .encode s.lenIn else .decode s.lenIn) { s with start := false }

/-- Every step keeps a legal state legal: `BUF` canonical, the cursors inside their ranges (10_state R13, R14), `SCR`
only during `DECODE` (R12), `BUSY`, `DONE`, `ERR` and `CAUSE` consistent (R21), every length, `LEN_IN` among them,
within `LW` bits (00_scope R4, 42_arithmetic R114). -/
def Obligations.StepKeepsInv : Prop :=
  ∀ (s t : State), Inv s → step s = .next t → Inv t

/-- The state after reset is legal (70_reset R160; 10_state R25). -/
def Obligations.ResetIsLegal : Prop := Inv State.reset

/-! ### The width of lengths, and the command fields -/

/-- `LW` is the least width that holds every value in `0..CAP` (00_scope R4). -/
def Obligations.LengthWidthIsLeast : Prop :=
  ∀ cap : Nat, (∀ n ≤ cap, n < 2 ^ lenWidth cap) ∧ ∀ w, cap < 2 ^ w → lenWidth cap ≤ w

/-- The host presents a command (10_state R20), in any phase (R27): the fields are written and `START` is pending, and
`LEN_IN` holds every value of `LW` bits (00_scope R4). A wider number is no value of the field; that the move is then
refused, and the refusal's name, are the model's choice (log 18). -/
def Obligations.CommandPresented : Prop :=
  ∀ (s : State) (op : BitVec 1) (n : Nat) (w : Bool) (rest : List Event), s.start = false →
    s.script = .command op n w :: rest →
    if n < 2 ^ lenWidth s.cap then
      step s = .next { s with op := op, lenIn := n, start := true, stepwise := w, script := rest }
    else step s = .refused .lenInTooWide
end

