-- ==== Sys2Proof/Laws/Decode.lean ====
section
/-! SUPPORT. What the bit operations and the parser do (42_arithmetic R112, 30_encoding R55). -/

namespace Sys2Proof

theorem topBit_eq_true_iff (x : Byte) : topBit x = true ↔ 128 ≤ x.toNat := by
  revert x; decide +kernel

theorem topBit_eq_false_iff (x : Byte) : topBit x = false ↔ x.toNat ≤ 127 := by
  revert x; decide +kernel

@[simp] theorem topBit_orFlag (x : Byte) : topBit (orFlag x) = true := by
  revert x; decide +kernel

@[simp] theorem topBit_andMask (x : Byte) : topBit (andMask x) = false := by
  revert x; decide +kernel

theorem andMask_orFlag (x : Byte) : andMask (orFlag x) = andMask x := by
  revert x; decide +kernel

theorem andMask_of_clean (x : Byte) (h : topBit x = false) : andMask x = x := by
  revert x; decide +kernel

theorem orFlag_of_flagged (x : Byte) (h : topBit x = true) : orFlag x = x := by
  revert x; decide +kernel

@[simp] theorem valueByte_valueBits (x : Byte) : valueByte (valueBits x) = andMask x := by
  revert x; decide +kernel

@[simp] theorem valueBits_valueByte (v : BitVec 7) : valueBits (valueByte v) = v := by
  revert v; decide +kernel

@[simp] theorem valueBits_orFlag (x : Byte) : valueBits (orFlag x) = valueBits x := by
  revert x; decide +kernel

theorem orFlag_andMask (x : Byte) : orFlag (andMask x) = orFlag x := by
  revert x; decide +kernel

theorem valueByte_clean (v : BitVec 7) : topBit (valueByte v) = false := by
  revert v; decide +kernel

/-- The parser at a byte with a next byte (30_encoding R55). -/
theorem decodeToken_cons_cons (b n : Byte) (rest : List Byte) :
    decodeToken (b :: n :: rest) = .ok (if topBit n then (.run b (valueBits n), rest) else (.lit b, n :: rest)) := by
  rw [decodeToken]; split <;> rfl

/-- What the parser answers, at all (30_encoding R56): a rejection of the empty window or one of the two tokens. -/
theorem decodeToken_cases {bs : List Byte} {i : Instr} {rest : List Byte} (h : decodeToken bs = .ok (i, rest)) :
    (∃ b, i = .lit b ∧ bs = b :: rest ∧ (rest.head?.map topBit).getD false = false) ∨
    (∃ b n, i = .run b (valueBits n) ∧ bs = b :: n :: rest ∧ topBit n = true) := by
  match bs, h with
  | [b], h => cases h; exact .inl ⟨b, rfl, rfl, rfl⟩
  | b :: n :: r, h =>
    rw [decodeToken_cons_cons] at h
    by_cases hn : topBit n = true
    · rw [if_pos hn] at h; cases h; exact .inr ⟨b, n, rfl, rfl, hn⟩
    · rw [if_neg hn] at h; cases h; exact .inl ⟨b, rfl, rfl, by simpa using hn⟩

theorem commandOp_double (n : Nat) : commandOp (2 * n) = 0#1 := by
  apply BitVec.eq_of_toNat_eq; simp [commandOp]

theorem commandOp_double_add_one (n : Nat) : commandOp (2 * n + 1) = 1#1 := by
  apply BitVec.eq_of_toNat_eq; simp [commandOp]

namespace Machine

/-- The window is one byte or two (30_encoding R56). -/
theorem tokenWindow_cases (m : Memory) (len rd : Nat) :
    (rd + 1 < len ∧ tokenWindow m len rd = [m.get rd, m.get (rd + 1)]) ∨
    (len ≤ rd + 1 ∧ tokenWindow m len rd = [m.get rd]) := by
  unfold tokenWindow
  split
  · next h => exact .inl ⟨h, rfl⟩
  · next h => exact .inr ⟨by omega, rfl⟩

/-- The scan count (40_encoder R73): at least 1, at most 255, inside `len`, all bytes equal, and as long as can be. -/
theorem scanMore_spec (m : Memory) (len : Nat) (v : Byte) (room i : Nat) :
    scanMore m len v room i ≤ room ∧
    (∀ j, j < scanMore m len v room i → i + j < len ∧ m.get (i + j) = v) ∧
    (scanMore m len v room i = room ∨ len ≤ i + scanMore m len v room i ∨
      m.get (i + scanMore m len v room i) ≠ v) := by
  induction room generalizing i with
  | zero => simp [scanMore]
  | succ room ih =>
    rw [scanMore]
    split
    · next h =>
      obtain ⟨h1, h2, h3⟩ := ih (i + 1)
      refine ⟨by omega, fun j hj => ?_, ?_⟩
      · cases j with
        | zero => simpa using h
        | succ j =>
          have := h2 j (by omega)
          rwa [show i + 1 + j = i + (j + 1) by omega] at this
      · rw [show i + (scanMore m len v room (i + 1) + 1) = i + 1 + scanMore m len v room (i + 1) by omega]
        exact h3.imp (by omega) id
    · next h =>
      refine ⟨by omega, fun j hj => by omega, .inr ?_⟩
      by_cases hlt : i < len
      · exact .inr (by simpa [hlt] using h)
      · exact .inl (by omega)

theorem scanCount_eq (m : Memory) (len rd : Nat) : scanCount m len rd = scanMore m len (m.get rd) 254 (rd + 1) + 1 := rfl

theorem scanCount_pos (m : Memory) (len rd : Nat) : 1 ≤ scanCount m len rd := by simp [scanCount]

theorem scanCount_le_maxRun (m : Memory) (len rd : Nat) : scanCount m len rd ≤ 255 := by
  have := (scanMore_spec m len (m.get rd) 254 (rd + 1)).1
  rw [scanCount_eq]; omega

theorem scanCount_le_len (m : Memory) {len rd : Nat} (h : rd < len) : rd + scanCount m len rd ≤ len := by
  have key := (scanMore_spec m len (m.get rd) 254 (rd + 1)).2.1
  rw [scanCount_eq]
  rcases Nat.eq_zero_or_pos (scanMore m len (m.get rd) 254 (rd + 1)) with h0 | h0
  · omega
  · have := (key (scanMore m len (m.get rd) 254 (rd + 1) - 1) (by omega)).1; omega

theorem scanCount_equal (m : Memory) (len rd j : Nat) (hj : j < scanCount m len rd) : m.get (rd + j) = m.get rd := by
  cases j with
  | zero => rfl
  | succ j =>
    rw [scanCount_eq] at hj
    have := ((scanMore_spec m len (m.get rd) 254 (rd + 1)).2.1 j (by omega)).2
    rwa [show rd + 1 + j = rd + (j + 1) by omega] at this

/-- The scan is as long as can be: stopped by the cap, by `len`, or by a different byte (40_encoder R73). -/
theorem scanCount_maximal (m : Memory) (len rd : Nat) :
    scanCount m len rd = 255 ∨ len ≤ rd + scanCount m len rd ∨ m.get (rd + scanCount m len rd) ≠ m.get rd := by
  have := (scanMore_spec m len (m.get rd) 254 (rd + 1)).2.2
  rw [scanCount_eq, show rd + (scanMore m len (m.get rd) 254 (rd + 1) + 1) =
    rd + 1 + scanMore m len (m.get rd) 254 (rd + 1) by omega]
  exact this.imp (by omega) id

/-- The count read back from its byte. -/
theorem scanCount_toNat (m : Memory) (len rd : Nat) :
    (BitVec.ofNat 8 (scanCount m len rd)).toNat = scanCount m len rd := by
  have := scanCount_le_maxRun m len rd
  rw [BitVec.toNat_ofNat]; exact Nat.mod_eq_of_lt (by omega)

end Machine

end Sys2Proof
end

