-- ==== Sys2Proof/Laws/Memory.lean ====
section
/-! SUPPORT. What the memory operations do, and that each keeps the canonical form. -/

namespace Sys2Proof.Machine

/-! ### Lists of cells -/

/-- The canonical form of a list of cells whose addresses all exceed a bound. -/
abbrev cellsWf (cells : List Host.Cell) : Prop :=
  cells.Pairwise (fun a b => a.1 < b.1) ∧ ∀ c ∈ cells, c.2 ≠ Memory.unlisted

theorem cellsGet_of_lt (i : Nat) (cells : List Host.Cell) (h : ∀ c ∈ cells, i < c.1) :
    cellsGet i cells = Memory.unlisted := by
  induction cells with
  | nil => rfl
  | cons c rest ih =>
    have hc := h c (by simp)
    rw [cellsGet, if_neg (by omega)]
    exact ih fun d hd => h d (by simp [hd])

theorem cellsGet_cellsCons (i j : Nat) (b : Byte) (rest : List Host.Cell) (h : ∀ c ∈ rest, j < c.1) :
    cellsGet i (cellsCons j b rest) = if i = j then b else cellsGet i rest := by
  unfold cellsCons
  split
  · next hb =>
    split
    · next hij => subst hij; rw [hb]; exact cellsGet_of_lt i rest h
    · rfl
  · rfl

theorem cellsGet_cellsSet (i j : Nat) (b : Byte) (cells : List Host.Cell)
    (h : cells.Pairwise (fun a b => a.1 < b.1)) :
    cellsGet i (cellsSet j b cells) = if i = j then b else cellsGet i cells := by
  induction cells with
  | nil => exact cellsGet_cellsCons i j b [] (by simp)
  | cons c rest ih =>
    obtain ⟨hc, hr⟩ := List.pairwise_cons.mp h
    rw [cellsSet]
    split
    · next hlt =>
      refine cellsGet_cellsCons i j b _ fun d hd => ?_
      rcases List.mem_cons.mp hd with rfl | hd
      · exact hlt
      · exact lt_trans hlt (hc d hd)
    · split
      · next _ heq =>
        subst heq
        rw [cellsGet_cellsCons i _ b rest hc, cellsGet]
        split <;> rfl
      · next h1 h2 =>
        rw [cellsGet, cellsGet, ih hr]
        by_cases hic : i = c.1 <;> by_cases hij : i = j <;> simp [hic, hij] <;> omega

theorem mem_cellsCons {i : Nat} {b : Byte} {rest : List Host.Cell} {c : Host.Cell} (h : c ∈ cellsCons i b rest) :
    (c = (i, b) ∧ b ≠ Memory.unlisted) ∨ c ∈ rest := by
  unfold cellsCons at h
  split at h
  · exact .inr h
  · next hb => exact (List.mem_cons.mp h).imp (fun e => ⟨e, hb⟩) id

theorem mem_cellsSet {i : Nat} {b : Byte} {cells : List Host.Cell} {c : Host.Cell} (h : c ∈ cellsSet i b cells) :
    (c = (i, b) ∧ b ≠ Memory.unlisted) ∨ c ∈ cells := by
  induction cells with
  | nil => exact mem_cellsCons h
  | cons d rest ih =>
    rw [cellsSet] at h
    split at h
    · exact mem_cellsCons h
    · split at h
      · exact (mem_cellsCons h).imp id (List.mem_cons_of_mem d)
      · rcases List.mem_cons.mp h with rfl | h
        · exact .inr (by simp)
        · exact (ih h).imp id (List.mem_cons_of_mem d)

theorem pairwise_cellsCons {i : Nat} {b : Byte} {rest : List Host.Cell} (hr : rest.Pairwise (fun a b => a.1 < b.1))
    (h : ∀ c ∈ rest, i < c.1) : (cellsCons i b rest).Pairwise (fun a b => a.1 < b.1) := by
  unfold cellsCons
  split
  · exact hr
  · exact List.pairwise_cons.mpr ⟨h, hr⟩

theorem pairwise_cellsSet (i : Nat) (b : Byte) (cells : List Host.Cell) (h : cells.Pairwise (fun a b => a.1 < b.1)) :
    (cellsSet i b cells).Pairwise (fun a b => a.1 < b.1) := by
  induction cells with
  | nil => exact pairwise_cellsCons .nil (by simp)
  | cons d rest ih =>
    obtain ⟨hd, hr⟩ := List.pairwise_cons.mp h
    rw [cellsSet]
    split
    · next hlt =>
      refine pairwise_cellsCons h fun c hc => ?_
      rcases List.mem_cons.mp hc with rfl | hc
      · exact hlt
      · exact lt_trans hlt (hd c hc)
    · split
      · next _ heq => subst heq; exact pairwise_cellsCons hr hd
      · next h1 h2 =>
        refine List.pairwise_cons.mpr ⟨fun c hc => ?_, ih hr⟩
        rcases mem_cellsSet hc with ⟨rfl, _⟩ | hc
        · exact show d.1 < i by omega
        · exact hd c hc

/-! ### Sizes -/

@[simp] theorem Memory.set_size (m : Memory) (i : Nat) (b : Byte) : (m.set i b).size = m.size := rfl

@[simp] theorem Memory.fillRun_size (m : Memory) (i : Nat) (b : Byte) (n : Nat) : (m.fillRun i b n).size = m.size := by
  induction n generalizing m i with
  | zero => rfl
  | succ n ih => exact ih (m.set i b) (i + 1)

@[simp] theorem Memory.setList_size (m : Memory) (i : Nat) (bs : List Byte) : (m.setList i bs).size = m.size := by
  induction bs generalizing m i with
  | nil => rfl
  | cons b rest ih => exact ih (m.set i b) (i + 1)

@[simp] theorem Memory.ofBytes_size (n : Nat) (bs : List Byte) : (Memory.ofBytes n bs).size = n := by
  simp [Memory.ofBytes]

@[simp] theorem Memory.snapshot_size (m : Memory) (n : Nat) : (m.snapshot n).size = n := rfl

@[simp] theorem Memory.anyBytes_size (n k : Nat) : (Memory.anyBytes n k).size = n := by simp [Memory.anyBytes]

/-! ### The canonical form is kept -/

theorem Memory.empty_wf (n : Nat) : ({ size := n, cells := [] } : Memory).wf :=
  ⟨.nil, fun _ h => absurd h List.not_mem_nil⟩

theorem Memory.wf_set {m : Memory} (h : m.wf) {i : Nat} (hi : i < m.size) (b : Byte) : (m.set i b).wf := by
  refine ⟨pairwise_cellsSet i b _ h.1, fun c hc => ?_⟩
  rcases mem_cellsSet hc with ⟨rfl, hb⟩ | hc
  · exact ⟨hi, hb⟩
  · exact h.2 c hc

theorem Memory.wf_fillRun {m : Memory} (h : m.wf) {i n : Nat} (hi : i + n ≤ m.size) (b : Byte) :
    (m.fillRun i b n).wf := by
  induction n generalizing m i with
  | zero => exact h
  | succ n ih => exact ih (wf_set h (by omega) b) (by rw [set_size]; omega)

theorem Memory.wf_setList {m : Memory} (h : m.wf) {i : Nat} {bs : List Byte} (hi : i + bs.length ≤ m.size) :
    (m.setList i bs).wf := by
  induction bs generalizing m i with
  | nil => exact h
  | cons b rest ih =>
    rw [List.length_cons] at hi
    exact ih (wf_set h (by omega) b) (by rw [set_size]; omega)

theorem Memory.wf_ofBytes {n : Nat} {bs : List Byte} (h : bs.length ≤ n) : (Memory.ofBytes n bs).wf :=
  wf_setList (empty_wf n) (by simpa using h)

theorem Memory.wf_anyBytes (n k : Nat) : (Memory.anyBytes n k).wf := wf_setList (empty_wf n) (by simp)

theorem Memory.wf_snapshot {m : Memory} (h : m.wf) (n : Nat) : (m.snapshot n).wf := by
  refine ⟨h.1.filter _, fun c hc => ?_⟩
  obtain ⟨hm, hn⟩ := List.mem_filter.mp hc
  exact ⟨by simpa using hn, (h.2 c hm).2⟩

/-! ### What a read gives after each operation -/

theorem Memory.get_set {m : Memory} (h : m.wf) (i j : Nat) (b : Byte) :
    (m.set j b).get i = if i = j then b else m.get i :=
  cellsGet_cellsSet i j b _ h.1

theorem Memory.get_fillRun {m : Memory} (h : m.wf) {i n : Nat} (hi : i + n ≤ m.size) (b : Byte) (a : Nat) :
    (m.fillRun i b n).get a = if i ≤ a ∧ a < i + n then b else m.get a := by
  induction n generalizing m i with
  | zero => rw [fillRun, if_neg (by omega)]
  | succ n ih =>
    rw [fillRun, ih (wf_set h (by omega) b) (by rw [set_size]; omega), get_set h]
    by_cases h1 : a = i
    · subst h1; simp
    · have : (i + 1 ≤ a ∧ a < i + 1 + n) ↔ (i ≤ a ∧ a < i + (n + 1)) := by omega
      simp only [h1, if_false, this]

theorem Memory.get_setList {m : Memory} (h : m.wf) {i : Nat} {bs : List Byte} (hi : i + bs.length ≤ m.size) (a : Nat) :
    (m.setList i bs).get a = if i ≤ a then bs.getD (a - i) (m.get a) else m.get a := by
  induction bs generalizing m i with
  | nil => simp [setList]
  | cons b rest ih =>
    rw [List.length_cons] at hi
    rw [setList, ih (wf_set h (by omega) b) (by rw [set_size]; omega), get_set h]
    by_cases h1 : a = i
    · subst h1; simp
    · by_cases h2 : i ≤ a
      · obtain ⟨k, rfl⟩ : ∃ k, a = i + 1 + k := ⟨a - (i + 1), by omega⟩
        rw [if_pos (by omega), if_pos h2, if_neg h1, show i + 1 + k - i = k + 1 by omega,
          show i + 1 + k - (i + 1) = k by omega]
        rfl
      · rw [if_neg (by omega), if_neg h2, if_neg h1]

theorem Memory.get_snapshot {m : Memory} (h : m.wf) (n i : Nat) :
    (m.snapshot n).get i = if i < n then m.get i else Memory.unlisted := by
  obtain ⟨size, cells⟩ := m
  show cellsGet i (cells.filter fun c => decide (c.1 < n)) = if i < n then cellsGet i cells else _
  have hp : cells.Pairwise (fun a b => a.1 < b.1) := h.1
  clear h
  induction cells with
  | nil => simp [cellsGet]
  | cons c rest ih =>
    obtain ⟨hc, hr⟩ := List.pairwise_cons.mp hp
    by_cases hcn : c.1 < n
    · rw [List.filter_cons_of_pos (by simpa using hcn), cellsGet, cellsGet, ih hr]
      by_cases hic : i = c.1
      · simp [hic, hcn]
      · simp [hic]
    · rw [List.filter_cons_of_neg (by simpa using hcn), ih hr, cellsGet]
      by_cases hin : i < n
      · rw [if_pos hin, if_pos hin, if_neg (by omega)]
      · rw [if_neg hin, if_neg hin]

theorem Memory.get_ofBytes {n : Nat} {bs : List Byte} (h : bs.length ≤ n) (i : Nat) :
    (Memory.ofBytes n bs).get i = bs.getD i Memory.unlisted := by
  rw [ofBytes, get_setList (empty_wf n) (by simpa using h)]
  simp [get, cellsGet]

/-! ### Slices -/

@[simp] theorem Memory.slice_length (m : Memory) (a b : Nat) : (m.slice a b).length = b - a := by
  simp [slice]

theorem Memory.slice_getElem (m : Memory) (a b i : Nat) (h : i < (m.slice a b).length) :
    (m.slice a b)[i] = m.get (a + i) := by
  simp [slice, List.getElem_range']

/-- A memory reads back the bytes it was made of. -/
theorem Memory.slice_ofBytes {n : Nat} {bs : List Byte} (h : bs.length ≤ n) :
    (Memory.ofBytes n bs).slice 0 bs.length = bs := by
  apply List.ext_getElem (by simp)
  intro i h1 h2
  rw [Memory.slice_getElem, Memory.get_ofBytes h]
  simp [h2]

@[simp] theorem Memory.slice_self (m : Memory) (a : Nat) : m.slice a a = [] := by simp [slice]

theorem Memory.slice_cons (m : Memory) {a b : Nat} (h : a < b) : m.slice a b = m.get a :: m.slice (a + 1) b := by
  obtain ⟨k, rfl⟩ : ∃ k, b = a + (k + 1) := ⟨b - a - 1, by omega⟩
  simp [slice, List.range'_succ, show a + (k + 1) - (a + 1) = k by omega]

theorem Memory.slice_append (m : Memory) {a b c : Nat} (h1 : a ≤ b) (h2 : b ≤ c) :
    m.slice a b ++ m.slice b c = m.slice a c := by
  obtain ⟨k, rfl⟩ : ∃ k, b = a + k := ⟨b - a, by omega⟩
  obtain ⟨l, rfl⟩ : ∃ l, c = a + k + l := ⟨c - (a + k), by omega⟩
  simp only [slice, ← List.map_append]
  congr 1
  rw [show a + k - a = k by omega, show a + k + l - (a + k) = l by omega, show a + k + l - a = k + l by omega]
  exact List.range'_append_1

theorem Memory.slice_congr {m m' : Memory} {a b : Nat} (h : ∀ i, a ≤ i → i < b → m.get i = m'.get i) :
    m.slice a b = m'.slice a b := by
  refine List.map_congr_left fun i hi => ?_
  obtain ⟨h1, h2⟩ := List.mem_range'_1.mp hi
  exact h i h1 (by omega)

/-- Two canonical memories of one size with the same bytes are the same data. -/
theorem Memory.ext_get {m m' : Memory} (h : m.wf) (h' : m'.wf) (hs : m.size = m'.size) (hg : ∀ i, m.get i = m'.get i) :
    m = m' := by
  obtain ⟨n, cs⟩ := m
  obtain ⟨n', cs'⟩ := m'
  have key : ∀ l l' : List Host.Cell, cellsWf l → cellsWf l' → (∀ i, cellsGet i l = cellsGet i l') → l = l' := by
    intro l
    induction l with
    | nil =>
      intro l' _ hl' hg
      cases l' with
      | nil => rfl
      | cons c r => exact absurd (by simpa [cellsGet] using (hg c.1).symm) (hl'.2 c (by simp))
    | cons c r ih =>
      intro l' hl hl' hg
      obtain ⟨hc, hr⟩ := List.pairwise_cons.mp hl.1
      cases l' with
      | nil => exact absurd (by simpa [cellsGet] using hg c.1) (hl.2 c (by simp))
      | cons c' r' =>
        obtain ⟨hc', hr'⟩ := List.pairwise_cons.mp hl'.1
        have lt_absurd : ∀ {d : Host.Cell} {q : List Host.Cell} {e : Host.Cell} {p : List Host.Cell},
            (∀ x ∈ p, e.1 < x.1) → e.2 ≠ Memory.unlisted →
            cellsGet e.1 (e :: p) = cellsGet e.1 (d :: q) → (∀ x ∈ q, d.1 < x.1) → ¬ e.1 < d.1 := by
          intro d q e p _ he hgg hq hlt
          rw [cellsGet, if_pos rfl, cellsGet_of_lt e.1 (d :: q) (fun x hx => by
            rcases List.mem_cons.mp hx with rfl | hx
            · exact hlt
            · exact lt_trans hlt (hq x hx))] at hgg
          exact he hgg
        have h1 : ¬ c.1 < c'.1 := lt_absurd hc (hl.2 c (by simp)) (hg c.1) hc'
        have h2 : ¬ c'.1 < c.1 := lt_absurd hc' (hl'.2 c' (by simp)) (hg c'.1).symm hc
        have h3 : c.1 = c'.1 := by omega
        have h4 : c.2 = c'.2 := by simpa [cellsGet, h3] using hg c.1
        have h5 : c = c' := Prod.ext h3 h4
        subst h5
        congr 1
        refine ih r' ⟨hr, fun x hx => hl.2 x (by simp [hx])⟩ ⟨hr', fun x hx => hl'.2 x (by simp [hx])⟩ fun i => ?_
        by_cases hi : i = c.1
        · rw [hi, cellsGet_of_lt _ _ hc, cellsGet_of_lt _ _ hc']
        · simpa [cellsGet, hi] using hg i
  simp only at hs
  subst hs
  congr 1
  exact key cs cs' ⟨h.1, fun c hc => (h.2 c hc).2⟩ ⟨h'.1, fun c hc => (h'.2 c hc).2⟩ hg

end Sys2Proof.Machine
end

