-- ==== Sys2Proof/Laws/State.lean ====
section
/-! SUPPORT. One lemma per field of State per named update, so that no later proof unfolds an update. -/

namespace Sys2Proof.Machine

/-! ### acceptCommand -/

@[simp] theorem acceptCommand_buf (n : Nat) (s : State) : (acceptCommand n s).buf = s.buf := rfl
@[simp] theorem acceptCommand_scr (n : Nat) (s : State) : (acceptCommand n s).scr = s.scr := rfl
@[simp] theorem acceptCommand_rd (n : Nat) (s : State) : (acceptCommand n s).rd = s.rd := rfl
@[simp] theorem acceptCommand_wr (n : Nat) (s : State) : (acceptCommand n s).wr = s.wr := rfl
@[simp] theorem acceptCommand_len (n : Nat) (s : State) : (acceptCommand n s).len = n := rfl
@[simp] theorem acceptCommand_cur (n : Nat) (s : State) : (acceptCommand n s).cur = s.cur := rfl
@[simp] theorem acceptCommand_cnt (n : Nat) (s : State) : (acceptCommand n s).cnt = s.cnt := rfl
@[simp] theorem acceptCommand_val (n : Nat) (s : State) : (acceptCommand n s).val = s.val := rfl
@[simp] theorem acceptCommand_phase (n : Nat) (s : State) : (acceptCommand n s).phase = s.phase := rfl
@[simp] theorem acceptCommand_op (n : Nat) (s : State) : (acceptCommand n s).op = s.op := rfl
@[simp] theorem acceptCommand_lenIn (n : Nat) (s : State) : (acceptCommand n s).lenIn = s.lenIn := rfl
@[simp] theorem acceptCommand_start (n : Nat) (s : State) : (acceptCommand n s).start = s.start := rfl
@[simp] theorem acceptCommand_stepwise (n : Nat) (s : State) : (acceptCommand n s).stepwise = s.stepwise := rfl
@[simp] theorem acceptCommand_busy (n : Nat) (s : State) : (acceptCommand n s).busy = true := rfl
@[simp] theorem acceptCommand_done (n : Nat) (s : State) : (acceptCommand n s).done = false := rfl
@[simp] theorem acceptCommand_err (n : Nat) (s : State) : (acceptCommand n s).err = false := rfl
@[simp] theorem acceptCommand_cause (n : Nat) (s : State) : (acceptCommand n s).cause = 0 := rfl
@[simp] theorem acceptCommand_lenOut (n : Nat) (s : State) : (acceptCommand n s).lenOut = freeLen s s.draws := rfl
@[simp] theorem acceptCommand_scratchOk (n : Nat) (s : State) : (acceptCommand n s).scratchOk = s.scratchOk := rfl
@[simp] theorem acceptCommand_script (n : Nat) (s : State) : (acceptCommand n s).script = s.script := rfl
@[simp] theorem acceptCommand_draws (n : Nat) (s : State) : (acceptCommand n s).draws = s.draws + 1 := rfl

/-! ### forgetRegisters -/

@[simp] theorem forgetRegisters_buf (s : State) : (forgetRegisters s).buf = s.buf := rfl
@[simp] theorem forgetRegisters_scr (s : State) : (forgetRegisters s).scr = s.scr := rfl
@[simp] theorem forgetRegisters_rd (s : State) : (forgetRegisters s).rd = freeLen s s.draws := rfl
@[simp] theorem forgetRegisters_wr (s : State) : (forgetRegisters s).wr = freeLen s (s.draws + 1) := rfl
@[simp] theorem forgetRegisters_len (s : State) : (forgetRegisters s).len = freeLen s (s.draws + 2) := rfl
@[simp] theorem forgetRegisters_cur (s : State) : (forgetRegisters s).cur = Config.freeByte s.draws := rfl
@[simp] theorem forgetRegisters_cnt (s : State) : (forgetRegisters s).cnt = Config.freeByte (s.draws + 1) := rfl
@[simp] theorem forgetRegisters_val (s : State) : (forgetRegisters s).val = Config.freeByte (s.draws + 2) := rfl
@[simp] theorem forgetRegisters_phase (s : State) : (forgetRegisters s).phase = s.phase := rfl
@[simp] theorem forgetRegisters_op (s : State) : (forgetRegisters s).op = s.op := rfl
@[simp] theorem forgetRegisters_lenIn (s : State) : (forgetRegisters s).lenIn = s.lenIn := rfl
@[simp] theorem forgetRegisters_start (s : State) : (forgetRegisters s).start = s.start := rfl
@[simp] theorem forgetRegisters_stepwise (s : State) : (forgetRegisters s).stepwise = s.stepwise := rfl
@[simp] theorem forgetRegisters_busy (s : State) : (forgetRegisters s).busy = s.busy := rfl
@[simp] theorem forgetRegisters_done (s : State) : (forgetRegisters s).done = s.done := rfl
@[simp] theorem forgetRegisters_err (s : State) : (forgetRegisters s).err = s.err := rfl
@[simp] theorem forgetRegisters_cause (s : State) : (forgetRegisters s).cause = s.cause := rfl
@[simp] theorem forgetRegisters_lenOut (s : State) : (forgetRegisters s).lenOut = s.lenOut := rfl
@[simp] theorem forgetRegisters_scratchOk (s : State) : (forgetRegisters s).scratchOk = s.scratchOk := rfl
@[simp] theorem forgetRegisters_script (s : State) : (forgetRegisters s).script = s.script := rfl
@[simp] theorem forgetRegisters_draws (s : State) : (forgetRegisters s).draws = s.draws + 3 := rfl

/-! ### finishCommand -/

@[simp] theorem finishCommand_buf (s : State) : (finishCommand s).buf = s.buf := rfl
@[simp] theorem finishCommand_scr (s : State) : (finishCommand s).scr = s.scr := rfl
@[simp] theorem finishCommand_rd (s : State) : (finishCommand s).rd = freeLen s s.draws := rfl
@[simp] theorem finishCommand_wr (s : State) : (finishCommand s).wr = freeLen s (s.draws + 1) := rfl
@[simp] theorem finishCommand_len (s : State) : (finishCommand s).len = freeLen s (s.draws + 2) := rfl
@[simp] theorem finishCommand_cur (s : State) : (finishCommand s).cur = Config.freeByte s.draws := rfl
@[simp] theorem finishCommand_cnt (s : State) : (finishCommand s).cnt = Config.freeByte (s.draws + 1) := rfl
@[simp] theorem finishCommand_val (s : State) : (finishCommand s).val = Config.freeByte (s.draws + 2) := rfl
@[simp] theorem finishCommand_phase (s : State) : (finishCommand s).phase = .idle := rfl
@[simp] theorem finishCommand_op (s : State) : (finishCommand s).op = s.op := rfl
@[simp] theorem finishCommand_lenIn (s : State) : (finishCommand s).lenIn = s.lenIn := rfl
@[simp] theorem finishCommand_start (s : State) : (finishCommand s).start = s.start := rfl
@[simp] theorem finishCommand_stepwise (s : State) : (finishCommand s).stepwise = s.stepwise := rfl
@[simp] theorem finishCommand_busy (s : State) : (finishCommand s).busy = false := rfl
@[simp] theorem finishCommand_done (s : State) : (finishCommand s).done = true := rfl
@[simp] theorem finishCommand_err (s : State) : (finishCommand s).err = s.err := rfl
@[simp] theorem finishCommand_cause (s : State) : (finishCommand s).cause = s.cause := rfl
@[simp] theorem finishCommand_lenOut (s : State) : (finishCommand s).lenOut = s.wr := rfl
@[simp] theorem finishCommand_scratchOk (s : State) : (finishCommand s).scratchOk = s.scratchOk := rfl
@[simp] theorem finishCommand_script (s : State) : (finishCommand s).script = s.script := rfl
@[simp] theorem finishCommand_draws (s : State) : (finishCommand s).draws = s.draws + 3 := rfl

/-! ### raiseError -/

@[simp] theorem raiseError_buf (c : BitVec 2) (s : State) : (raiseError c s).buf = s.buf := rfl
@[simp] theorem raiseError_scr (c : BitVec 2) (s : State) : (raiseError c s).scr = s.scr := rfl
@[simp] theorem raiseError_rd (c : BitVec 2) (s : State) : (raiseError c s).rd = s.rd := rfl
@[simp] theorem raiseError_wr (c : BitVec 2) (s : State) : (raiseError c s).wr = s.wr := rfl
@[simp] theorem raiseError_len (c : BitVec 2) (s : State) : (raiseError c s).len = s.len := rfl
@[simp] theorem raiseError_cur (c : BitVec 2) (s : State) : (raiseError c s).cur = s.cur := rfl
@[simp] theorem raiseError_cnt (c : BitVec 2) (s : State) : (raiseError c s).cnt = s.cnt := rfl
@[simp] theorem raiseError_val (c : BitVec 2) (s : State) : (raiseError c s).val = s.val := rfl
@[simp] theorem raiseError_phase (c : BitVec 2) (s : State) : (raiseError c s).phase = .idle := rfl
@[simp] theorem raiseError_op (c : BitVec 2) (s : State) : (raiseError c s).op = s.op := rfl
@[simp] theorem raiseError_lenIn (c : BitVec 2) (s : State) : (raiseError c s).lenIn = s.lenIn := rfl
@[simp] theorem raiseError_start (c : BitVec 2) (s : State) : (raiseError c s).start = s.start := rfl
@[simp] theorem raiseError_stepwise (c : BitVec 2) (s : State) : (raiseError c s).stepwise = s.stepwise := rfl
@[simp] theorem raiseError_busy (c : BitVec 2) (s : State) : (raiseError c s).busy = false := rfl
@[simp] theorem raiseError_done (c : BitVec 2) (s : State) : (raiseError c s).done = true := rfl
@[simp] theorem raiseError_err (c : BitVec 2) (s : State) : (raiseError c s).err = true := rfl
@[simp] theorem raiseError_cause (c : BitVec 2) (s : State) : (raiseError c s).cause = c := rfl
@[simp] theorem raiseError_lenOut (c : BitVec 2) (s : State) : (raiseError c s).lenOut = 0 := rfl
@[simp] theorem raiseError_scratchOk (c : BitVec 2) (s : State) : (raiseError c s).scratchOk = s.scratchOk := rfl
@[simp] theorem raiseError_script (c : BitVec 2) (s : State) : (raiseError c s).script = s.script := rfl
@[simp] theorem raiseError_draws (c : BitVec 2) (s : State) : (raiseError c s).draws = s.draws := rfl

/-! ### releaseScratch -/

@[simp] theorem releaseScratch_buf (s : State) : (releaseScratch s).buf = s.buf := rfl
@[simp] theorem releaseScratch_scr (s : State) : (releaseScratch s).scr = none := rfl
@[simp] theorem releaseScratch_rd (s : State) : (releaseScratch s).rd = s.rd := rfl
@[simp] theorem releaseScratch_wr (s : State) : (releaseScratch s).wr = s.wr := rfl
@[simp] theorem releaseScratch_len (s : State) : (releaseScratch s).len = s.len := rfl
@[simp] theorem releaseScratch_cur (s : State) : (releaseScratch s).cur = s.cur := rfl
@[simp] theorem releaseScratch_cnt (s : State) : (releaseScratch s).cnt = s.cnt := rfl
@[simp] theorem releaseScratch_val (s : State) : (releaseScratch s).val = s.val := rfl
@[simp] theorem releaseScratch_phase (s : State) : (releaseScratch s).phase = s.phase := rfl
@[simp] theorem releaseScratch_op (s : State) : (releaseScratch s).op = s.op := rfl
@[simp] theorem releaseScratch_lenIn (s : State) : (releaseScratch s).lenIn = s.lenIn := rfl
@[simp] theorem releaseScratch_start (s : State) : (releaseScratch s).start = s.start := rfl
@[simp] theorem releaseScratch_stepwise (s : State) : (releaseScratch s).stepwise = s.stepwise := rfl
@[simp] theorem releaseScratch_busy (s : State) : (releaseScratch s).busy = s.busy := rfl
@[simp] theorem releaseScratch_done (s : State) : (releaseScratch s).done = s.done := rfl
@[simp] theorem releaseScratch_err (s : State) : (releaseScratch s).err = s.err := rfl
@[simp] theorem releaseScratch_cause (s : State) : (releaseScratch s).cause = s.cause := rfl
@[simp] theorem releaseScratch_lenOut (s : State) : (releaseScratch s).lenOut = s.lenOut := rfl
@[simp] theorem releaseScratch_scratchOk (s : State) : (releaseScratch s).scratchOk = s.scratchOk := rfl
@[simp] theorem releaseScratch_script (s : State) : (releaseScratch s).script = s.script := rfl
@[simp] theorem releaseScratch_draws (s : State) : (releaseScratch s).draws = s.draws := rfl

/-! ### snapshotStep -/

@[simp] theorem snapshotStep_buf (s : State) : (snapshotStep s).buf = s.buf := rfl
@[simp] theorem snapshotStep_scr (s : State) : (snapshotStep s).scr = some (s.buf.snapshot s.len) := rfl
@[simp] theorem snapshotStep_rd (s : State) : (snapshotStep s).rd = 0 := rfl
@[simp] theorem snapshotStep_wr (s : State) : (snapshotStep s).wr = 0 := rfl
@[simp] theorem snapshotStep_len (s : State) : (snapshotStep s).len = s.len := rfl
@[simp] theorem snapshotStep_cur (s : State) : (snapshotStep s).cur = s.cur := rfl
@[simp] theorem snapshotStep_cnt (s : State) : (snapshotStep s).cnt = s.cnt := rfl
@[simp] theorem snapshotStep_val (s : State) : (snapshotStep s).val = s.val := rfl
@[simp] theorem snapshotStep_phase (s : State) : (snapshotStep s).phase = .dec := rfl
@[simp] theorem snapshotStep_op (s : State) : (snapshotStep s).op = s.op := rfl
@[simp] theorem snapshotStep_lenIn (s : State) : (snapshotStep s).lenIn = s.lenIn := rfl
@[simp] theorem snapshotStep_start (s : State) : (snapshotStep s).start = s.start := rfl
@[simp] theorem snapshotStep_stepwise (s : State) : (snapshotStep s).stepwise = s.stepwise := rfl
@[simp] theorem snapshotStep_busy (s : State) : (snapshotStep s).busy = s.busy := rfl
@[simp] theorem snapshotStep_done (s : State) : (snapshotStep s).done = s.done := rfl
@[simp] theorem snapshotStep_err (s : State) : (snapshotStep s).err = s.err := rfl
@[simp] theorem snapshotStep_cause (s : State) : (snapshotStep s).cause = s.cause := rfl
@[simp] theorem snapshotStep_lenOut (s : State) : (snapshotStep s).lenOut = s.lenOut := rfl
@[simp] theorem snapshotStep_scratchOk (s : State) : (snapshotStep s).scratchOk = s.scratchOk := rfl
@[simp] theorem snapshotStep_script (s : State) : (snapshotStep s).script = s.script := rfl
@[simp] theorem snapshotStep_draws (s : State) : (snapshotStep s).draws = s.draws := rfl

/-! ### loadCount -/

@[simp] theorem loadCount_buf (s : State) : (loadCount s).buf = s.buf := rfl
@[simp] theorem loadCount_scr (s : State) : (loadCount s).scr = s.scr := rfl
@[simp] theorem loadCount_rd (s : State) : (loadCount s).rd = s.rd := rfl
@[simp] theorem loadCount_wr (s : State) : (loadCount s).wr = s.wr := rfl
@[simp] theorem loadCount_len (s : State) : (loadCount s).len = s.len := rfl
@[simp] theorem loadCount_cur (s : State) : (loadCount s).cur = s.buf.get s.rd := rfl
@[simp] theorem loadCount_cnt (s : State) : (loadCount s).cnt = BitVec.ofNat 8 (scanCount s.buf s.len s.rd) := rfl
@[simp] theorem loadCount_val (s : State) : (loadCount s).val = s.val := rfl
@[simp] theorem loadCount_phase (s : State) : (loadCount s).phase = s.phase := rfl
@[simp] theorem loadCount_op (s : State) : (loadCount s).op = s.op := rfl
@[simp] theorem loadCount_lenIn (s : State) : (loadCount s).lenIn = s.lenIn := rfl
@[simp] theorem loadCount_start (s : State) : (loadCount s).start = s.start := rfl
@[simp] theorem loadCount_stepwise (s : State) : (loadCount s).stepwise = s.stepwise := rfl
@[simp] theorem loadCount_busy (s : State) : (loadCount s).busy = s.busy := rfl
@[simp] theorem loadCount_done (s : State) : (loadCount s).done = s.done := rfl
@[simp] theorem loadCount_err (s : State) : (loadCount s).err = s.err := rfl
@[simp] theorem loadCount_cause (s : State) : (loadCount s).cause = s.cause := rfl
@[simp] theorem loadCount_lenOut (s : State) : (loadCount s).lenOut = s.lenOut := rfl
@[simp] theorem loadCount_scratchOk (s : State) : (loadCount s).scratchOk = s.scratchOk := rfl
@[simp] theorem loadCount_script (s : State) : (loadCount s).script = s.script := rfl
@[simp] theorem loadCount_draws (s : State) : (loadCount s).draws = s.draws := rfl

/-! ### resetEvent -/

@[simp] theorem resetEvent_buf (s : State) : (resetEvent s).buf = Memory.anyBytes s.buf.size (s.draws + 3) := rfl
@[simp] theorem resetEvent_scr (s : State) : (resetEvent s).scr = none := rfl
@[simp] theorem resetEvent_rd (s : State) : (resetEvent s).rd = freeLen s s.draws := rfl
@[simp] theorem resetEvent_wr (s : State) : (resetEvent s).wr = freeLen s (s.draws + 1) := rfl
@[simp] theorem resetEvent_len (s : State) : (resetEvent s).len = freeLen s (s.draws + 2) := rfl
@[simp] theorem resetEvent_cur (s : State) : (resetEvent s).cur = Config.freeByte s.draws := rfl
@[simp] theorem resetEvent_cnt (s : State) : (resetEvent s).cnt = Config.freeByte (s.draws + 1) := rfl
@[simp] theorem resetEvent_val (s : State) : (resetEvent s).val = Config.freeByte (s.draws + 2) := rfl
@[simp] theorem resetEvent_phase (s : State) : (resetEvent s).phase = .idle := rfl
@[simp] theorem resetEvent_op (s : State) : (resetEvent s).op = s.op := rfl
@[simp] theorem resetEvent_lenIn (s : State) : (resetEvent s).lenIn = s.lenIn := rfl
@[simp] theorem resetEvent_start (s : State) : (resetEvent s).start = s.start := rfl
@[simp] theorem resetEvent_stepwise (s : State) : (resetEvent s).stepwise = s.stepwise := rfl
@[simp] theorem resetEvent_busy (s : State) : (resetEvent s).busy = false := rfl
@[simp] theorem resetEvent_done (s : State) : (resetEvent s).done = false := rfl
@[simp] theorem resetEvent_err (s : State) : (resetEvent s).err = false := rfl
@[simp] theorem resetEvent_cause (s : State) : (resetEvent s).cause = 0 := rfl
@[simp] theorem resetEvent_lenOut (s : State) : (resetEvent s).lenOut = 0 := rfl
@[simp] theorem resetEvent_scratchOk (s : State) : (resetEvent s).scratchOk = s.scratchOk := rfl
@[simp] theorem resetEvent_script (s : State) : (resetEvent s).script = s.script := rfl
@[simp] theorem resetEvent_draws (s : State) : (resetEvent s).draws = s.draws + 3 + s.buf.size := rfl

end Sys2Proof.Machine
end

