-- ==== Sys2Proof/Laws/Ops.lean ====
section
/-! SUPPORT. What each shared operation and each part of a command can do, said once. -/

namespace Sys2Proof.Machine

@[simp] theorem andThen_next (s : State) (f : State → Host.Outcome State Fault Refusal) : andThen (.next s) f = f s := rfl

@[simp] theorem andThen_fault (r : Fault) (f : State → Host.Outcome State Fault Refusal) :
    andThen (.fault r) f = .fault r := rfl

@[simp] theorem andThen_refused (r : Refusal) (f : State → Host.Outcome State Fault Refusal) :
    andThen (.refused r) f = .refused r := rfl

/-- A sequence that answers a next state passes through a next state. -/
theorem andThen_eq_next {o : Host.Outcome State Fault Refusal} {f : State → Host.Outcome State Fault Refusal} {t : State}
    (h : andThen o f = .next t) : ∃ s, o = .next s ∧ f s = .next t := by
  cases o with
  | next s => exact ⟨s, rfl, h⟩
  | fault r => cases h
  | refused r => cases h

theorem andThen_assoc (o : Host.Outcome State Fault Refusal) (f g : State → Host.Outcome State Fault Refusal) :
    andThen (andThen o f) g = andThen o fun s => andThen (f s) g := by
  cases o <;> rfl

/-! ### `LW` -/

theorem lt_two_pow_lenWidth (cap : Nat) : cap < 2 ^ lenWidth cap := by
  unfold lenWidth
  split
  · next h => simp [h]
  · exact Nat.lt_log2_self

/-- `LW` is the least width that holds `CAP` (00_scope R4). -/
theorem lenWidth_le {cap w : Nat} (h : cap < 2 ^ w) : lenWidth cap ≤ w := by
  unfold lenWidth
  split
  · omega
  · next h0 => exact (Nat.log2_lt h0).mpr h

theorem freeLen_lt (s : State) (k : Nat) : freeLen s k < 2 ^ lenWidth s.cap := Nat.mod_lt _ (Nat.two_pow_pos _)

theorem lt_two_pow_of_le_cap {s : State} {n : Nat} (h : n ≤ s.cap) : n < 2 ^ lenWidth s.cap :=
  lt_of_le_of_lt h (lt_two_pow_lenWidth _)

/-! ### Stores and tokens -/

theorem storeBuf_of_lt {i : Nat} {s : State} (h : i < s.cap) (b : Byte) :
    storeBuf i b s = .next { s with buf := s.buf.set i b } := if_pos h

theorem storeBuf_next {i : Nat} {b : Byte} {s t : State} (h : storeBuf i b s = .next t) :
    i < s.cap ∧ t = { s with buf := s.buf.set i b } := by
  unfold storeBuf at h
  split at h
  · next hi => cases h; exact ⟨hi, rfl⟩
  · cases h

/-- Everything `RUN` can do when it goes on (41_decoder R96). -/
theorem execRun_next {c : Byte} {v : BitVec 7} {s t : State} (h : execRun c v s = .next t) :
    s.wr + c.toNat ≤ s.cap ∧
    t = { s with
      cur := c, cnt := c, val := valueByte v, buf := s.buf.fillRun s.wr (valueByte v) c.toNat
      wr := s.wr + c.toNat, rd := s.rd + 2 } := by
  unfold execRun at h
  split at h
  · cases h
  · next ho => cases h; exact ⟨by simpa [overruns] using ho, rfl⟩

/-- Everything `LIT` can do when it goes on (41_decoder R97). -/
theorem execLit_next {b : Byte} {s t : State} (h : execLit b s = .next t) :
    s.wr + 1 ≤ s.cap ∧ t = { s with cur := b, buf := s.buf.set s.wr b, wr := s.wr + 1, rd := s.rd + 1 } := by
  unfold execLit at h
  split at h
  · cases h
  · next ho => cases h; exact ⟨by simpa [overruns] using ho, rfl⟩

/-- Everything a decoder step can do when it goes on (41_decoder R95 to R97). -/
theorem decoderStep_next {s t : State} (h : decoderStep s = .next t) :
    ∃ m, s.scr = some m ∧ s.len ≤ m.size ∧
      ((s.rd + 1 < s.len ∧ topBit (m.get (s.rd + 1)) = true ∧
          execRun (m.get s.rd) (valueBits (m.get (s.rd + 1))) s = .next t) ∨
        ((s.rd + 1 < s.len → topBit (m.get (s.rd + 1)) = false) ∧ execLit (m.get s.rd) s = .next t)) := by
  unfold decoderStep at h
  split at h
  · cases h
  · next m hm =>
    split at h
    · cases h
    · next hsize =>
      refine ⟨m, hm, by omega, ?_⟩
      rcases tokenWindow_cases m s.len s.rd with ⟨hlt, hw⟩ | ⟨hge, hw⟩
      · rw [hw, decodeToken_cons_cons] at h
        by_cases hb : topBit (m.get (s.rd + 1)) = true
        · rw [if_pos hb] at h; exact .inl ⟨hlt, hb, h⟩
        · rw [if_neg hb] at h; exact .inr ⟨fun _ => by simpa using hb, h⟩
      · rw [hw] at h; exact .inr ⟨fun hlt => absurd hlt (by omega), h⟩

/-- What one decoder step does, where `SCR` reaches `len` (41_decoder R95). -/
theorem decoderStep_eq {s : State} {m : Memory} (hm : s.scr = some m) (hs : s.len ≤ m.size) :
    decoderStep s =
      if isRun m s.len s.rd then execRun (m.get s.rd) (valueBits (m.get (s.rd + 1))) s else execLit (m.get s.rd) s := by
  unfold decoderStep isRun
  rw [hm]
  simp only [if_neg (show ¬ m.size < s.len by omega)]
  rcases tokenWindow_cases m s.len s.rd with ⟨hlt, hw⟩ | ⟨hge, hw⟩
  · rw [hw, decodeToken_cons_cons]
    by_cases hb : topBit (m.get (s.rd + 1)) = true <;> simp [hlt, hb]
  · rw [hw, decide_eq_false (by omega)]
    simp [decodeToken]

/-! ### The encoder -/

/-- What the emission of a token writes and where it leaves `wr` (40_encoder R74, R75). -/
def emitted (s : State) : State :=
  if moreThanOne s.cnt then
    { s with buf := (s.buf.set s.wr s.cnt).set (s.wr + 1) (orFlag s.cur), wr := s.wr + 2 }
  else { s with buf := s.buf.set s.wr (andMask s.cur), wr := s.wr + 1 }

/-- Everything an encoder step can do when it goes on (40_encoder R73 to R76). -/
theorem encoderStep_next {s t : State} (h : encoderStep s = .next t) :
    s.len ≤ s.cap ∧ (if moreThanOne (loadCount s).cnt then s.wr + 2 ≤ s.cap else s.wr + 1 ≤ s.cap) ∧
    t = { emitted (loadCount s) with rd := s.rd + scanCount s.buf s.len s.rd } := by
  unfold encoderStep at h
  split at h
  · cases h
  · next hlen =>
    obtain ⟨u, hu, ht⟩ := andThen_eq_next h
    cases ht
    refine ⟨by omega, ?_⟩
    unfold emitted
    have hn : (loadCount s).cnt.toNat = scanCount s.buf s.len s.rd := scanCount_toNat _ _ _
    split at hu
    · next hm =>
      obtain ⟨u1, h1, hu⟩ := andThen_eq_next hu
      obtain ⟨u2, h2, hu⟩ := andThen_eq_next hu
      cases hu
      obtain ⟨_, rfl⟩ := storeBuf_next h1
      obtain ⟨hc, rfl⟩ := storeBuf_next h2
      rw [if_pos hm, if_pos hm]
      refine ⟨hc, ?_⟩
      rw [← hn]
      rfl
    · next hm =>
      obtain ⟨u1, h1, hu⟩ := andThen_eq_next hu
      cases hu
      obtain ⟨hc, rfl⟩ := storeBuf_next h1
      rw [if_neg hm, if_neg hm]
      refine ⟨hc, ?_⟩
      rw [← hn]
      rfl

/-- The emission of a run token where both bytes fall into `BUF` (40_encoder R74). -/
theorem emitRun_eq {s : State} (h : s.wr + 2 ≤ s.cap) :
    emitRun s = .next { s with buf := (s.buf.set s.wr s.cnt).set (s.wr + 1) (orFlag s.cur), wr := s.wr + 2 } := by
  unfold State.cap at h
  have h1 : s.wr < s.buf.size := by omega
  have h2 : s.wr + 1 < s.buf.size := by omega
  simp [emitRun, storeBuf, State.cap, h1, h2]

/-- The emission of a literal token where its byte falls into `BUF` (40_encoder R75). -/
theorem emitLit_eq {s : State} (h : s.wr + 1 ≤ s.cap) :
    emitLit s = .next { s with buf := s.buf.set s.wr (andMask s.cur), wr := s.wr + 1 } := by
  unfold State.cap at h
  have h1 : s.wr < s.buf.size := by omega
  simp [emitLit, storeBuf, State.cap, h1]

/-- The emission, where its writes fall into `BUF`. -/
theorem emit_eq {s : State} (h : if moreThanOne s.cnt then s.wr + 2 ≤ s.cap else s.wr + 1 ≤ s.cap) :
    (if moreThanOne s.cnt then emitRun s else emitLit s) = .next (emitted s) := by
  unfold emitted
  split
  · next hm => rw [if_pos hm] at h; exact emitRun_eq h
  · next hm => rw [if_neg hm] at h; exact emitLit_eq h

/-- The emission loads nothing: the count is still in `cnt`. -/
@[simp] theorem emitted_cnt (s : State) : (emitted s).cnt = s.cnt := by unfold emitted; split <;> rfl

@[simp] theorem emitted_rd (s : State) : (emitted s).rd = s.rd := by unfold emitted; split <;> rfl

/-- An encoder step goes on wherever its writes fall into `BUF` (40_encoder R79 says they do). -/
theorem encoderStep_eq {s : State} (hlen : s.len ≤ s.cap)
    (hw : if moreThanOne (loadCount s).cnt then s.wr + 2 ≤ s.cap else s.wr + 1 ≤ s.cap) :
    encoderStep s = .next { emitted (loadCount s) with rd := s.rd + scanCount s.buf s.len s.rd } := by
  have hn : (loadCount s).cnt.toNat = scanCount s.buf s.len s.rd := scanCount_toNat _ _ _
  unfold encoderStep
  rw [if_neg (by omega)]
  dsimp only
  rw [emit_eq (s := loadCount s) hw, andThen_next, emitted_cnt, hn, emitted_rd, loadCount_rd]

/-! ### Commands -/

/-- Everything an algorithmic step can do when it goes on (10_state R19 (b)). -/
theorem coreStep_next {s t : State} (h : coreStep s = .next t) :
    (s.phase = .idle ∧ t = s) ∨
    (s.phase = .enc ∧ s.rd < s.len ∧ encoderStep s = .next t) ∨
    (s.phase = .enc ∧ s.len ≤ s.rd ∧ t = finishCommand s) ∨
    (s.phase = .decCopy ∧ t = snapshotStep s) ∨
    (s.phase = .dec ∧ s.rd < s.len ∧ decoderStep s = .next t) ∨
    (s.phase = .dec ∧ s.len ≤ s.rd ∧ t = finishCommand (releaseScratch s)) := by
  unfold coreStep at h
  split at h
  · next hp => cases h; exact .inl ⟨hp, rfl⟩
  · next hp =>
    split at h
    · next hl => exact .inr (.inl ⟨hp, hl, h⟩)
    · next hl => cases h; exact .inr (.inr (.inl ⟨hp, by omega, rfl⟩))
  · next hp => cases h; exact .inr (.inr (.inr (.inl ⟨hp, rfl⟩)))
  · next hp =>
    split at h
    · next hl => exact .inr (.inr (.inr (.inr (.inl ⟨hp, hl, h⟩))))
    · next hl => cases h; exact .inr (.inr (.inr (.inr (.inr ⟨hp, by omega, rfl⟩))))

theorem runToEnd_idle {s : State} (h : s.phase = .idle) (k : Nat) : runToEnd k s = .next s := by
  cases k with
  | zero => rfl
  | succ k => exact if_pos h

theorem runToEnd_busy {s : State} (h : s.phase ≠ .idle) (k : Nat) :
    runToEnd (k + 1) s = andThen (coreStep s) (runToEnd k) := if_neg h

/-- The checks before acceptance, said once (60_exceptions R145). -/
theorem ifAccepted_next {n : Nat} {s t : State} {f : State → Host.Outcome State Fault Refusal}
    (h : ifAccepted n s f = .next t) : (s.phase ≠ .idle ∧ t = s) ∨ (s.phase = .idle ∧ n ≤ s.cap ∧ f s = .next t) := by
  unfold ifAccepted at h
  split at h
  · next hp => cases h; exact .inl ⟨hp, rfl⟩
  · next hp =>
    split at h
    · cases h
    · exact .inr ⟨by simpa using hp, by omega, h⟩

theorem ifAccepted_idle {n : Nat} {s : State} {f : State → Host.Outcome State Fault Refusal}
    (hp : s.phase = .idle) (hn : n ≤ s.cap) : ifAccepted n s f = f s := by
  unfold ifAccepted
  rw [if_neg (by simp [hp]), if_neg (by omega)]

end Sys2Proof.Machine
end

