-- ==== Sys2Proof/Laws/PerInstr.lean ====
section
/-! SUPPORT. Statements about each instruction as syntax, one lemma per constructor. -/

namespace Sys2Proof.Laws.TokenBytes

/-- A token is one or two bytes long, a command has no byte in the stream (30_encoding R50, R52, R53). -/
def Statement (i : Instr) : Prop := (tokenBytes i).length = (if i.isToken then (match i with | .run _ _ => 2 | _ => 1) else 0)

theorem encode (lenIn : Nat) : Statement (.encode lenIn) := rfl

theorem decode (lenIn : Nat) : Statement (.decode lenIn) := rfl

theorem run (c : Byte) (v : BitVec 7) : Statement (.run c v) := rfl

theorem lit (b : Byte) : Statement (.lit b) := rfl

end Sys2Proof.Laws.TokenBytes
end

