-- ==== Sys2Proof/Laws/Step.lean ====
section
/-! SUPPORT. What one step of the machine can do, said once. -/

namespace Sys2Proof.Machine

/-- Everything the presenting of a command can do when it goes on (10_state R20). -/
theorem presentCommand_next {op : BitVec 1} {n : Nat} {w : Bool} {s t : State} (h : presentCommand op n w s = .next t) :
    n < 2 ^ lenWidth s.cap ∧ t = { s with op := op, lenIn := n, start := true, stepwise := w } := by
  unfold presentCommand at h
  split at h
  · next hn => cases h; exact ⟨by simpa [fitsLen] using hn, rfl⟩
  · cases h

/-- Everything a move can do when it goes on (60_exceptions R152). -/
theorem takeMove_next {e : Event} {s t : State} (h : takeMove e s = .next t) :
    (∃ i b, e = .hostWrite i b ∧ s.phase = .idle ∧ i < s.cap ∧ t = { s with buf := s.buf.set i b }) ∨
    (∃ op n w, e = .command op n w ∧ n < 2 ^ lenWidth s.cap ∧
      t = { s with op := op, lenIn := n, start := true, stepwise := w }) ∨
    (∃ ok, e = .scratch ok ∧ t = { s with scratchOk := ok }) ∨
    (e = .reset ∧ t = resetEvent s) ∨
    (e = .coreTurn ∧ coreStep s = .next t) := by
  cases e with
  | hostWrite i b =>
    simp only [takeMove, hostWrite] at h
    split at h
    · cases h
    · next hp =>
      obtain ⟨hi, rfl⟩ := storeBuf_next h
      exact .inl ⟨i, b, rfl, by simpa using hp, hi, rfl⟩
  | command op n w =>
    obtain ⟨hn, rfl⟩ := presentCommand_next h
    exact .inr (.inl ⟨op, n, w, rfl, hn, rfl⟩)
  | scratch ok => cases h; exact .inr (.inr (.inl ⟨ok, rfl, rfl⟩))
  | reset => cases h; exact .inr (.inr (.inr (.inl ⟨rfl, rfl⟩)))
  | coreTurn => exact .inr (.inr (.inr (.inr ⟨rfl, h⟩)))

/-- Everything a step can do when it goes on. -/
theorem step_next {s t : State} (h : step s = .next t) :
    (s.start = true ∧ s.stepwise = true ∧ launchCommand s.op s.lenIn { s with start := false } = .next t) ∨
    (s.start = true ∧ s.stepwise = false ∧ exec (decodeCommand s.op s.lenIn) { s with start := false } = .next t) ∨
    (s.start = false ∧ s.script = [] ∧ coreStep s = .next t) ∨
    (∃ e rest, s.start = false ∧ s.script = e :: rest ∧ takeMove e { s with script := rest } = .next t) := by
  unfold step at h
  split at h
  · next hs =>
    split at h
    · next hw => exact .inl ⟨hs, hw, h⟩
    · next hw => exact .inr (.inl ⟨hs, by simpa using hw, h⟩)
  · next hs =>
    unfold moveStep at h
    split at h
    · next hl => exact .inr (.inr (.inl ⟨by simpa using hs, hl, h⟩))
    · next e rest hl => exact .inr (.inr (.inr ⟨e, rest, by simpa using hs, hl, h⟩))

/-- A run of one step more, on any machine of the host's interface, by what the step answers. -/
theorem run_succ (M : Host.Core) (k : Nat) (s : M.State) :
    (∀ t, M.step s = .next t → M.run (k + 1) s = M.run k t) ∧
    (∀ r, M.step s = .fault r → M.run (k + 1) s = .fault r) ∧
    (∀ r, M.step s = .refused r → M.run (k + 1) s = .refused r) := by
  refine ⟨fun t h => ?_, fun r h => ?_, fun r h => ?_⟩ <;> rw [Host.Core.run, h]

/-- A run of one step more of the core. -/
theorem core_run_succ (k : Nat) (s : State) :
    Host.Core.run Sys2Proof.core (k + 1) s = andThen (step s) fun t => Host.Core.run Sys2Proof.core k t := by
  obtain ⟨hn, hf, hr⟩ := run_succ Sys2Proof.core k s
  cases h : step s with
  | next t => exact hn t h
  | fault r => exact hf r h
  | refused r => exact hr r h

/-- An accepted `ENCODE` as the run of its algorithmic steps (40_encoder R70). -/
theorem exec_encode_idle {s : State} {n : Nat} (hp : s.phase = .idle) (hn : n ≤ s.cap) :
    exec (.encode n) s = runToEnd (n + 1) (beginEncode n s) :=
  (ifAccepted_idle hp hn : execEncode n s = _)

/-- An accepted `DECODE` as the run of its algorithmic steps (41_decoder R90). -/
theorem exec_decode_idle {s : State} {n : Nat} (hp : s.phase = .idle) (hn : n ≤ s.cap) :
    exec (.decode n) s = runToEnd (n + 2) (beginDecode n s) :=
  (ifAccepted_idle hp hn : execDecode n s = _)

end Sys2Proof.Machine
end

