-- ==== Sys2Proof/Tests/Slice0.lean ====
section
/-! SUPPORT. The model's own tests: ill-formed terms, words of the spec, its test vectors (95_test_vectors), and for
every obligation with hypotheses a state and operands that meet them. Expected results come from spec/. -/

namespace Sys2Proof.Tests

open Machine

/-! ### Ill-formed terms are refused -/

theorem test_encode_too_wide : (Instr.encode 16).wellFormed 4 = false := by decide

theorem test_decode_too_wide : (Instr.decode 16).wellFormed 4 = false := by decide

theorem test_run_count_one_ill_formed : (Instr.run 1 5).tokenWellFormed = false := by decide

theorem test_lit_flagged_ill_formed : (Instr.lit 0x85).tokenWellFormed = false := by decide

theorem test_unsafe_pair : parseSafe [.lit 9, .run 200 5] = false ∧ parseSafe [.lit 9, .run 127 5] = true := by decide

theorem test_memory_unsorted : ¬ ({ size := 8, cells := [(3, 1), (2, 1)] } : Memory).wf := by decide

theorem test_memory_blank_cell : ¬ ({ size := 8, cells := [(3, 0)] } : Memory).wf := by decide

theorem test_memory_cell_outside : ¬ ({ size := 8, cells := [(8, 1)] } : Memory).wf := by decide

/-! ### Words written out from the encodings -/

/-- `ENCODE 4` with `LW = 10`: `OP = 0`, `LEN_IN = 4` (30_encoding R51). -/
theorem test_word_encode : decode 10 (.command 0b00000001000) = .ok (.encode 4, []) := by decide

/-- `DECODE 3` with `LW = 10`: `OP = 1`, `LEN_IN = 3` (30_encoding R51). -/
theorem test_word_decode : decode 10 (.command 0b00000000111) = .ok (.decode 3, []) := by decide

/-- `RUN 3, 0x69` is `03 E9` (95_test_vectors P4). -/
theorem test_word_run : decode 10 (.stream [0b00000011, 0b11101001]) = .ok (.run 3 0x69, []) := by decide

/-- `LIT 0x48` before `03` (95_test_vectors P4). -/
theorem test_word_lit : decode 10 (.stream [0b01001000, 0b00000011]) = .ok (.lit 0x48, [3]) := by decide

/-- `Asm` of the token program of 95_test_vectors P4. -/
theorem test_asm : asm [.lit 0x48, .run 3 0x69, .lit 0x21] = [0x48, 0x03, 0xE9, 0x21] := by decide

/-- The window `cccccccc1vvvvvvv` of opcode_table.json: `SCR[rd]` in bits 15:8. -/
theorem test_table_run : decodeTableWord 16 0x0385 = some (.run 3 5) ∧ decodeTableWord 8 0x80 = some (.run 0 0) := by decide

theorem test_table_commands : decodeTableWord 8 0 = some (.encode 0) ∧ decodeTableWord 8 1 = some (.decode 0) := by decide

theorem test_table_lit : decodeTableWord 0 0 = some (.lit 0) ∧ decodeTableWord 16 0x0905 = some (.lit 9) := by decide

/-! ### The spec's vectors, one step each -/

/-- An idle core whose `BUF` of `cap` bytes starts with `bytes`. -/
def idleWith (cap : Nat) (bytes : List Byte) : State := { State.reset with buf := Memory.ofBytes cap bytes }

/-- The same with `START` and a command in the fields. -/
def started (cap : Nat) (bytes : List Byte) (op : BitVec 1) (n : Nat) : State :=
  { idleWith cap bytes with start := true, op := op, lenIn := n }

/-- `ERR`, `LEN_OUT` and the whole `BUF` of a next state. -/
def seen (o : Host.Outcome State Fault Refusal) : Option (Bool × Nat × List Byte) :=
  match o with
  | .next t => some (t.err, t.lenOut, t.buf.slice 0 t.buf.size)
  | .fault _ => none
  | .refused _ => none

/-- The fault of an outcome. -/
def faultOf (o : Host.Outcome State Fault Refusal) : Option Fault :=
  match o with
  | .next _ => none
  | .fault r => some r
  | .refused _ => none

/-- V-E30, V-E16 and V-E17 in one: runs, literals, top bits (40_encoder R84). -/
theorem test_encode_trace :
    seen (step (started 10 [7, 7, 7, 7, 1, 2, 2, 0x85, 0x85, 0xEE] 0 9)) =
      some (false, 7, [4, 0x87, 1, 2, 0x82, 2, 0x85, 0x85, 0x85, 0xEE]) := by decide +kernel

/-- V-E28: equal bytes beyond `n` are not counted. -/
theorem test_encode_stops_at_length :
    seen (step (started 4 [5, 5, 5, 5] 0 2)) = some (false, 2, [2, 0x85, 5, 5]) := by decide +kernel

/-- V-D12: the snapshot matters. -/
theorem test_decode_snapshot :
    seen (step (started 8 [4, 0x85, 9, 3, 0x86] 1 5)) = some (false, 8, [5, 5, 5, 5, 9, 6, 6, 6]) := by decide +kernel

/-- V-D26: the second step writes past `CAP`. -/
theorem test_decode_overrun : faultOf (step (started 3 [3, 0x85, 9] 1 3)) = some .destOverrun := by decide +kernel

/-- V-D13: a run of count 0 writes nothing. -/
theorem test_run_count_zero :
    (seen (step ((idleWith 4 [1, 2]).withFetchWord 16 0x0085))).map (fun x => x.2.2) = some [1, 2, 0, 0] := by decide +kernel

/-- V-D22: the largest expansion of one token does not fit 254 bytes. -/
theorem test_run_overrun : faultOf (step ((idleWith 254 []).withFetchWord 16 0xFFFF)) = some .destOverrun := by decide +kernel

/-- V-D15: a literal is written with its top bit. -/
theorem test_lit_flagged :
    (seen (exec (.lit 0x85) (idleWith 2 []))).map (fun x => x.2.2) = some [0x85, 0] := by decide +kernel

/-- V-D26: a literal at `wr = CAP`. -/
theorem test_lit_overrun : faultOf (exec (.lit 9) { idleWith 3 [] with wr := 3 }) = some .destOverrun := by decide +kernel

/-! ### Every obligation's hypotheses are met -/

/-- A running `DECODE` between decoder steps. -/
def decoding (cap : Nat) (bytes : List Byte) (rd wr : Nat) : State :=
  { idleWith cap [] with
    phase := .dec, busy := true, scr := some (Memory.ofBytes bytes.length bytes), len := bytes.length, rd := rd, wr := wr }

/-- A running `ENCODE` between encoder steps. -/
def encoding (cap : Nat) (bytes : List Byte) (rd wr : Nat) : State :=
  { idleWith cap bytes with phase := .enc, busy := true, len := bytes.length, rd := rd, wr := wr }

theorem witness_DecodeOfEncode : (Instr.decode 1023).wellFormed 10 = true ∧ (Instr.run 0 127).wellFormed 0 = true := by decide

theorem witness_TokenDecodesInStream :
    (Instr.lit 0xFF).isToken = true ∧ ((∃ b, Instr.lit 0xFF = .lit b) → ∀ n ∈ [0x7F#8, 0x85#8].head?, n.toNat ≤ 127) :=
  ⟨rfl, fun _ n h => by cases h; decide⟩

/-- A run, a literal whose next byte is clear, and the last byte (95_test_vectors section 3, the classification). -/
theorem witness_RunExactlyWhenNextByteFlagged :
    (0 < 3 ∧ 0 + 1 < 3 ∧ 128 ≤ ((Memory.ofBytes 3 [3, 0x80, 9]).get 1).toNat) ∧
    (0 < 3 ∧ ¬ 128 ≤ ((Memory.ofBytes 3 [0x85, 0x7F, 0x85]).get 1).toNat) ∧ (2 < 3 ∧ ¬ 2 + 1 < 3) := by decide

theorem witness_CanonicalStreamsWellFormed :
    Instr.run 2 5 ∈ tok [5, 5, 0x89] ∧ Instr.lit 9 ∈ tok [5, 5, 0x89] := by decide

theorem witness_WellFormedStreamDecomposesOnce :
    (∀ t ∈ [Instr.run 2 5, .run 255 127, .lit 127], t.tokenWellFormed = true) ∧
      asm [.run 2 5, .run 255 127, .lit 127] = asm [.run 2 5, .run 255 127, .lit 127] := by decide

theorem witness_RunPerformed :
    (decoding 8 [3, 0x85] 0 5).buf.wf ∧ (decoding 8 [3, 0x85] 0 5).wr + (3#8 : Byte).toNat ≤ (decoding 8 [3, 0x85] 0 5).cap := by
  decide

theorem witness_LitPerformed :
    (decoding 8 [9] 0 7).buf.wf ∧ (decoding 8 [9] 0 7).wr + 1 ≤ (decoding 8 [9] 0 7).cap := by decide

/-- The premises of `DecoderStepPerformsToken`. -/
abbrev decoderPremises (s : State) (bytes : List Byte) : Prop :=
  s.phase = .dec ∧ s.scr = some (Memory.ofBytes bytes.length bytes) ∧
    (Memory.ofBytes bytes.length bytes).size = s.len ∧ s.rd < s.len ∧ s.buf.wf

/-- A run that just fits, one byte too many, a literal at the last byte of `BUF`, one at `CAP`. -/
theorem witness_DecoderStepPerformsToken :
    (decoderPremises (decoding 8 [3, 0x85] 0 5) [3, 0x85] ∧ (decoding 8 [3, 0x85] 0 5).wr + 3 = 8) ∧
    (decoderPremises (decoding 8 [3, 0x85] 0 6) [3, 0x85] ∧ 8 < (decoding 8 [3, 0x85] 0 6).wr + 3) ∧
    (decoderPremises (decoding 8 [9] 0 7) [9] ∧ (decoding 8 [9] 0 7).wr + 1 = 8) ∧
    (decoderPremises (decoding 8 [9, 5] 0 8) [9, 5] ∧ 8 < (decoding 8 [9, 5] 0 8).wr + 1) := by decide

/-- The premises of `EncoderStepEmitsToken`. -/
abbrev encoderPremises (s : State) : Prop :=
  s.phase = .enc ∧ s.buf.wf ∧ s.wr ≤ s.rd ∧ s.rd < s.len ∧ s.len ≤ s.cap

/-- A run stopped by `len = CAP`, and a literal at the last byte. -/
theorem witness_EncoderStepEmitsToken :
    (encoderPremises (encoding 4 [9, 5, 5, 5] 1 1) ∧ scanCount (encoding 4 [9, 5, 5, 5] 1 1).buf 4 1 = 3) ∧
    (encoderPremises (encoding 4 [5, 5, 5, 9] 3 2) ∧ scanCount (encoding 4 [5, 5, 5, 9] 3 2).buf 4 3 = 1) := by decide

theorem witness_SnapshotCopiesStream :
    let s := { idleWith 8 [3, 0x85, 9] with phase := .decCopy, len := 3 }
    s.phase = .decCopy ∧ s.buf.wf := by decide

theorem witness_CommandCompletes :
    ((encoding 4 [5, 5, 5, 9] 4 3).rd = (encoding 4 [5, 5, 5, 9] 4 3).len ∧ (encoding 4 [5, 5, 5, 9] 4 3).phase = .enc) ∧
    ((decoding 8 [3, 0x85, 9] 3 4).rd = (decoding 8 [3, 0x85, 9] 3 4).len ∧ (decoding 8 [3, 0x85, 9] 3 4).phase = .dec) := by
  decide

/-- A step that goes on and one that faults. -/
theorem witness_DecoderReadsOnlyScratch :
    (∃ t, coreStep (decoding 8 [3, 0x85] 0 5) = .next t) ∧ (Memory.ofBytes 8 [1, 2]).size = (decoding 8 [3, 0x85] 0 5).buf.size ∧
      (decoding 8 [3, 0x85] 0 5).buf.wf ∧ (Memory.ofBytes 8 [1, 2]).wf ∧
      coreStep (decoding 8 [3, 0x85] 0 6) = .fault .destOverrun := ⟨⟨_, rfl⟩, by decide, by decide, by decide, rfl⟩

/-- The premises of the result statements of both commands, at `n = 0`, inside, and at `n = CAP`. -/
abbrev commandPremises (s : State) (n : Nat) : Prop := s.phase = .idle ∧ n ≤ s.cap ∧ s.buf.wf

theorem witness_EncodeIsTok :
    commandPremises (idleWith 4 [5, 5, 5, 9]) 0 ∧ commandPremises (idleWith 4 [5, 5, 5, 9]) 4 := by decide

theorem witness_EncodeNeverGrows : commandPremises (idleWith 4 [1, 1, 2, 2]) 4 ∧ commandPremises (idleWith 4 [5, 5, 5, 9]) 4 := by
  decide

/-- Each of the four outcomes, the third where the expansion fills `CAP` exactly (V-D1, V-D27, V-D25, V-D26). -/
theorem witness_DecodeIsExp :
    commandPremises (idleWith 8 [3, 0x85, 9]) 0 ∧
    (commandPremises { idleWith 8 [3, 0x85, 9] with scratchOk := false } 3) ∧
    (commandPremises (idleWith 4 [3, 0x85, 9]) 3 ∧ (expand ((idleWith 4 [3, 0x85, 9]).buf.slice 0 3)).length = 4) ∧
    (commandPremises (idleWith 3 [3, 0x85, 9]) 3 ∧ 3 < (expand ((idleWith 3 [3, 0x85, 9]).buf.slice 0 3)).length) := by decide

theorem witness_ParserRecoversParseSafeStream :
    let T := [Instr.run 3 5, .lit 9]
    let s := decoding 8 [3, 0x85, 9] 0 0
    let m := Memory.ofBytes 3 [3, 0x85, 9]
    parseSafe T = true ∧ s.phase = .dec ∧ s.rd = 0 ∧ s.scr = some m ∧ m.size = s.len ∧ m.slice 0 s.len = asm T := by decide

theorem witness_ExpansionBounds : parseSafe [.run 2 5, .lit 9, .run 127 5] = true := by decide

theorem witness_RoundTrip :
    let s := idleWith 4 [5, 5, 5, 9]
    commandPremises s 4 ∧ s.scratchOk = true ∧ clean7 (s.buf.slice 0 4) ∧ parseSafe (tok (s.buf.slice 0 4)) = true := by
  unfold clean7; decide

/-- 127 equal bytes and one other: 128 bytes, not all equal. -/
theorem witness_ShortRunsAreParseSafe :
    ∀ i v, i + 128 ≤ (List.replicate 127 5#8 ++ [9#8]).length →
      ((List.replicate 127 5#8 ++ [9#8]).drop i).take 128 ≠ List.replicate 128 v := by
  intro i v hi h
  obtain rfl : i = 0 := by simp at hi; omega
  have h0 := congrArg (fun l => l[0]?) h
  have h1 := congrArg (fun l => l[127]?) h
  simp at h0 h1
  rw [← h0] at h1
  exact absurd h1 (by decide)

theorem witness_LongRunAfterLiteralIsMisparsed :
    ∀ c ∈ [128, 200, 255], (9#8 : Byte).toNat ≤ 127 ∧ (5#8 : Byte).toNat ≤ 127 ∧ (9#8 : Byte) ≠ 5#8 ∧ 128 ≤ c ∧ c ≤ 255 := by decide

/-- The 257 raw bytes of 42_arithmetic R121. -/
def overrunBytes : List Byte := [0x7F#8] ++ List.replicate 128 0x05#8 ++ List.replicate 128 0x06#8

theorem overrunBytes_length : overrunBytes.length = 257 := by
  simp only [overrunBytes, List.length_append, List.length_replicate, List.length_singleton]

theorem idleWith_full {cap : Nat} {bytes : List Byte} (h : bytes.length = cap) :
    (idleWith cap bytes).phase = .idle ∧ (idleWith cap bytes).buf.wf ∧ (idleWith cap bytes).cap = cap ∧
      (idleWith cap bytes).scratchOk = true ∧ (idleWith cap bytes).buf.slice 0 cap = bytes := by
  subst h
  exact ⟨rfl, Memory.wf_ofBytes le_rfl, Memory.ofBytes_size _ _, rfl, Memory.slice_ofBytes le_rfl⟩

theorem witness_OwnEncodingCanOverrun :
    (idleWith 257 overrunBytes).phase = .idle ∧ (idleWith 257 overrunBytes).buf.wf ∧
      (idleWith 257 overrunBytes).cap = 257 ∧ (idleWith 257 overrunBytes).scratchOk = true ∧
      (idleWith 257 overrunBytes).buf.slice 0 257 =
        [0x7F#8] ++ List.replicate 128 0x05#8 ++ List.replicate 128 0x06#8 :=
  idleWith_full overrunBytes_length

/-- Two states that differ in a register, in `DONE` and behind the operand. -/
theorem witness_CommandsDependOnlyOnInput :
    let s := idleWith 8 [3, 0x85, 9]
    let s' := { idleWith 8 [3, 0x85, 9, 0xEE] with rd := 5, done := true }
    commandPremises s 3 ∧ s'.phase = .idle ∧ s'.cap = s.cap ∧ s'.scratchOk = s.scratchOk ∧ s'.buf.wf ∧
      (∀ j < 3, s'.buf.get j = s.buf.get j) ∧ s'.buf.get 3 ≠ s.buf.get 3 := by decide

theorem witness_CheckerIsEquality : ([1#8, 2#8] : List Byte).length = [1#8, 3#8].length := by decide

theorem witness_AllocationFailureCompletes :
    let s := { idleWith 8 [3, 0x85, 9] with scratchOk := false }
    s.phase = .idle ∧ 0 < 8 ∧ 8 ≤ s.cap ∧ s.scratchOk = false := by decide

/-- `LEN_IN = CAP + 1` (V-D30), a run one byte too long, a literal at `CAP`. -/
theorem witness_LenRangeAndDestOverrun :
    ((idleWith 8 []).phase = .idle ∧ (idleWith 8 []).cap < 9) ∧
    (decoding 8 [3, 0x85] 0 6).cap < (decoding 8 [3, 0x85] 0 6).wr + (3#8 : Byte).toNat ∧
    (decoding 8 [9] 0 8).cap < (decoding 8 [9] 0 8).wr + 1 := by decide

theorem witness_StartWhileBusyNotAccepted :
    (encoding 4 [5] 0 0).phase ≠ .idle ∧ ({ encoding 4 [5] 0 0 with start := true }).start = true := by decide

theorem witness_EmptyCommandsComplete : (Instr.decode 0 = .encode 0 ∨ Instr.decode 0 = .decode 0) ∧ (idleWith 8 []).phase = .idle := by
  decide

/-- The premises of `AcceptanceLatchesOperand`. -/
abbrev acceptPremises (s : State) : Prop :=
  s.start = true ∧ s.stepwise = true ∧ s.phase = .idle ∧ 0 < s.lenIn ∧ s.lenIn ≤ s.cap ∧ (s.op = 1#1 → s.scratchOk = true)

theorem witness_AcceptanceLatchesOperand :
    acceptPremises { started 4 [5, 5] 0 4 with stepwise := true, scratchOk := false } ∧
      acceptPremises { started 4 [5, 5] 1 1 with stepwise := true } := by decide

/-- A write by the host, after a failed command. -/
theorem witness_StatusHoldsWhileIdle :
    let s := { idleWith 4 [] with err := true, cause := 1, done := true, script := [.hostWrite 0 5] }
    s.phase = .idle ∧ s.start = false ∧ s.script.head? ≠ some .reset ∧ ∃ t, step s = .next t :=
  ⟨rfl, rfl, by decide, _, rfl⟩

/-- In the middle of a `DECODE`. -/
theorem witness_RstAbandonsCommand :
    let s := { decoding 8 [3, 0x85] 0 0 with script := [.reset, .coreTurn] }
    s.start = false ∧ s.script = .reset :: [.coreTurn] := by decide

/-- The last byte of `BUF`, idle and busy. -/
theorem witness_HostWritesOnlyWhileIdle :
    let s := { idleWith 8 [] with script := [.hostWrite 7 5] }
    let u := { encoding 8 [5] 0 0 with script := [.hostWrite 7 5] }
    (s.start = false ∧ s.script = .hostWrite 7 5 :: [] ∧ s.buf.wf ∧ 7 < s.cap ∧ s.phase = .idle) ∧
      (u.start = false ∧ u.script = .hostWrite 7 5 :: [] ∧ u.buf.wf ∧ 7 < u.cap ∧ u.phase ≠ .idle) := by decide

theorem witness_StepRunsCommand : (started 4 [5] 1 1).start = true ∧ (started 4 [5] 1 1).stepwise = false := by decide

/-- A run with no move pending, a last literal at the core's turn. -/
theorem witness_StepRunsToken :
    (let s := decoding 8 [3, 0x85] 0 0
     s.start = false ∧ s.phase = .dec ∧ s.scr = some (Memory.ofBytes 2 [3, 0x85]) ∧ s.len ≤ 2 ∧ s.rd < s.len ∧
      decodeToken (tokenWindow (Memory.ofBytes 2 [3, 0x85]) s.len s.rd) = .ok (.run 3 5, []) ∧ s.script = []) ∧
    (let s := { decoding 8 [3, 0x85, 9] 2 3 with script := [.coreTurn] }
     s.start = false ∧ s.phase = .dec ∧ s.scr = some (Memory.ofBytes 3 [3, 0x85, 9]) ∧ s.len ≤ 3 ∧ s.rd < s.len ∧
      decodeToken (tokenWindow (Memory.ofBytes 3 [3, 0x85, 9]) s.len s.rd) = .ok (.lit 9, []) ∧
      s.script = .coreTurn :: []) := by decide

theorem witness_StepwiseRefinesTransaction :
    let s := { started 4 [5, 5, 5, 9] 0 4 with stepwise := true }
    s.start = true ∧ s.stepwise = true ∧ s.phase = .idle ∧ s.script = [] := by decide

/-- A legal state in the middle of an `ENCODE`, with a step that goes on. -/
theorem witness_StepKeepsInv : Inv (encoding 4 [5, 5, 5, 9] 0 0) ∧ ∃ t, step (encoding 4 [5, 5, 5, 9] 0 0) = .next t :=
  ⟨⟨by decide, by decide, by decide, by decide, by decide, by decide, by decide, ⟨rfl, by decide, by decide, by decide⟩⟩, _, rfl⟩

/-- With `CAP` = 8, `LW` = 4: the largest value of `LEN_IN`, and the first that does not fit. -/
theorem witness_CommandPresented :
    let s := fun n => { idleWith 8 [] with script := [.command 1 n false] }
    (∀ n, (s n).start = false ∧ (s n).script = .command 1 n false :: []) ∧ lenWidth 8 = 4 ∧
      15 < 2 ^ lenWidth (s 15).cap ∧ ¬ 16 < 2 ^ lenWidth (s 16).cap :=
  ⟨fun _ => ⟨rfl, rfl⟩, by decide, by decide, by decide⟩

end Sys2Proof.Tests
end

section
/-! The width `LW` of lengths (00_scope R4) and the presenting of a command (10_state R20). -/

namespace Sys2Proof.Machine

/-- With no `START` pending the oldest move of the script is made. -/
theorem step_of_script {s : State} {e : Event} {rest : List Event} (hs : s.start = false)
    (hl : s.script = e :: rest) : step s = takeMove e { s with script := rest } := by
  simp [step, hs, moveStep, hl]

/-- `LEN_IN` of `LW` bits: the fields are written and `START` is pending (10_state R20). -/
theorem presentCommand_of_fits {n : Nat} {s : State} (h : n < 2 ^ lenWidth s.cap) (op : BitVec 1) (w : Bool) :
    presentCommand op n w s = .next { s with op := op, lenIn := n, start := true, stepwise := w } :=
  if_pos (decide_eq_true h)

/-- A number of more than `LW` bits is no value of the field `LEN_IN` (00_scope R4; log 18). -/
theorem presentCommand_of_too_wide {n : Nat} {s : State} (h : ¬ n < 2 ^ lenWidth s.cap) (op : BitVec 1) (w : Bool) :
    presentCommand op n w s = .refused .lenInTooWide :=
  if_neg (by simpa [fitsLen] using h)

/-- Settles O46: `2 ^ LW` exceeds `CAP`, and no smaller width does. -/
theorem lengthWidthIsLeast : Obligations.LengthWidthIsLeast := fun cap =>
  ⟨fun _ hn => lt_of_le_of_lt hn (lt_two_pow_lenWidth cap), fun _ hw => lenWidth_le hw⟩

/-- Settles O47: the step is the move, and `presentCommand` has the two cases of the statement. -/
theorem commandPresented : Obligations.CommandPresented := by
  intro s op n w rest hs hl
  rw [step_of_script hs hl]
  split
  · next hn => exact presentCommand_of_fits (s := { s with script := rest }) hn op w
  · next hn => exact presentCommand_of_too_wide (s := { s with script := rest }) hn op w

end Sys2Proof.Machine
end

section
/-! The invariant of a legal state: one rule per part of a command and per move, then the step (10_state R12 to R21). -/

namespace Sys2Proof

open Machine

/-! ### What each phase promises -/

theorem phaseInv_of_idle {s : State} (hp : s.phase = .idle) : phaseInv s ↔ s.scr = none ∧ s.lenOut ≤ s.cap := by
  rw [phaseInv, hp]

theorem phaseInv_of_enc {s : State} (hp : s.phase = .enc) :
    phaseInv s ↔ s.scr = none ∧ s.wr ≤ s.rd ∧ s.rd ≤ s.len ∧ s.len ≤ s.cap := by
  rw [phaseInv, hp]

theorem phaseInv_of_decCopy {s : State} (hp : s.phase = .decCopy) :
    phaseInv s ↔ s.scr = none ∧ 1 ≤ s.len ∧ s.len ≤ s.cap := by
  rw [phaseInv, hp]

theorem phaseInv_of_dec {s : State} (hp : s.phase = .dec) :
    phaseInv s ↔
      (∃ m, s.scr = some m ∧ m.wf ∧ m.size = s.len) ∧ s.rd ≤ s.len ∧ s.len ≤ s.cap ∧ s.wr ≤ s.cap := by
  rw [phaseInv, hp]

/-- What a step of a running command leaves alone while the command goes on: `CAP`, `len`, `LEN_IN` and the status
fields (10_state R15, R21). -/
structure KeepsStatus (s t : State) : Prop where
  cap : t.cap = s.cap
  len : t.len = s.len
  lenIn : t.lenIn = s.lenIn
  busy : t.busy = s.busy
  done : t.done = s.done
  err : t.err = s.err
  cause : t.cause = s.cause
  lenOut : t.lenOut = s.lenOut

/-! ### What the emission of a token does to the fields the invariant speaks of -/

@[simp] theorem emitted_phase (s : State) : (emitted s).phase = s.phase := by unfold emitted; split <;> rfl

@[simp] theorem emitted_scr (s : State) : (emitted s).scr = s.scr := by unfold emitted; split <;> rfl

theorem keepsStatus_encoderStep (s : State) (rd : Nat) : KeepsStatus s { emitted (loadCount s) with rd := rd } := by
  unfold emitted
  split <;> exact ⟨rfl, rfl, rfl, rfl, rfl, rfl, rfl, rfl⟩

/-- The emission of a token that fits into `BUF` keeps `BUF` canonical (40_encoder R74, R75). -/
theorem emitted_wf {s : State} (hbuf : s.buf.wf)
    (hroom : if moreThanOne s.cnt then s.wr + 2 ≤ s.cap else s.wr + 1 ≤ s.cap) : (emitted s).buf.wf := by
  unfold emitted
  split
  · next hm =>
    rw [if_pos hm] at hroom
    have hfirst : s.wr < s.buf.size := Nat.lt_of_succ_lt hroom
    exact Memory.wf_set (Memory.wf_set hbuf hfirst _) hroom _
  · next hm =>
    rw [if_neg hm] at hroom
    exact Memory.wf_set hbuf hroom _

/-- A token is no longer than the bytes it stands for (40_encoder R79). -/
theorem emitted_wr_le {s : State} (hcnt : 1 ≤ s.cnt.toNat) : (emitted s).wr ≤ s.wr + s.cnt.toNat := by
  unfold emitted
  split
  · next hm => exact Nat.add_le_add_left (of_decide_eq_true hm) s.wr
  · exact Nat.add_le_add_left hcnt s.wr

namespace Inv

/-! ### General rules -/

/-- While a command runs, no error is shown: `ERR` comes with `DONE`, and `DONE` only when idle (10_state R21). -/
theorem no_error_of_busy {s : State} (h : Inv s) (hp : s.phase ≠ .idle) : s.err = false ∧ s.cause = 0 := by
  obtain hok | ⟨-, -, -, hd⟩ := h.errCause
  · exact hok
  · exact absurd (h.doneIdle hd) hp

/-- The fields of host and environment are free, but that `LEN_IN` has `LW` bits (10_state R27). -/
theorem set_control {s : State} (h : Inv s) {n : Nat} (hn : n < 2 ^ lenWidth s.cap) (op : BitVec 1)
    (start stepwise scratchOk : Bool) (script : List Event) :
    Inv { s with
      op := op, lenIn := n, start := start, stepwise := stepwise, scratchOk := scratchOk, script := script } :=
  ⟨h.capPos, h.bufWf, h.busyIff, h.doneIdle, h.errCause, h.widths, hn, h.phases⟩

/-- A running command that goes on running with its status fields kept stays legal, where `BUF` is canonical, the
cursors lie in it, and the new phase's promise holds. -/
theorem of_keepsStatus {s t : State} (h : Inv s) (hp : s.phase ≠ .idle) (hk : KeepsStatus s t) (hp' : t.phase ≠ .idle)
    (hbuf : t.buf.wf) (hrd : t.rd ≤ s.cap) (hwr : t.wr ≤ s.cap) (hphase : phaseInv t) : Inv t where
  capPos := hk.cap ▸ h.capPos
  bufWf := hbuf
  busyIff := by simp [hk.busy, h.busyIff, busyOf, hp, hp']
  doneIdle := fun hd => absurd (h.doneIdle (hk.done ▸ hd)) hp
  errCause := .inl (by rw [hk.err, hk.cause]; exact h.no_error_of_busy hp)
  widths := by
    obtain ⟨-, -, hlen, hout⟩ := h.widths
    rw [hk.cap, hk.len, hk.lenOut]
    exact ⟨lt_two_pow_of_le_cap hrd, lt_two_pow_of_le_cap hwr, hlen, hout⟩
  lenInWidth := by rw [hk.lenIn, hk.cap]; exact h.lenInWidth
  phases := hphase

/-- Normal completion is legal whatever ran before: `LEN_OUT` takes `wr`, no error is shown, `SCR` is gone
(40_encoder R77, 41_decoder R100). -/
theorem of_finishCommand {s : State} (hcap : 1 ≤ s.cap) (hbuf : s.buf.wf) (hin : s.lenIn < 2 ^ lenWidth s.cap)
    (herr : s.err = false ∧ s.cause = 0) (hscr : s.scr = none) (hwr : s.wr ≤ s.cap) : Inv (finishCommand s) where
  capPos := hcap
  bufWf := hbuf
  busyIff := rfl
  doneIdle := fun _ => rfl
  errCause := .inl herr
  widths := ⟨freeLen_lt s _, freeLen_lt s _, freeLen_lt s _, lt_two_pow_of_le_cap hwr⟩
  lenInWidth := hin
  phases := ⟨hscr, hwr⟩

/-! ### The steps of a running command -/

/-- After an encoder step `wr` is still not beyond `rd`, nor `rd` beyond `len` (40_encoder R79). -/
theorem encoderStep {s t : State} (h : Inv s) (hp : s.phase = .enc) (hlt : s.rd < s.len)
    (hstep : Machine.encoderStep s = .next t) : Inv t := by
  obtain ⟨hscr, hwr, -, hlen⟩ := (phaseInv_of_enc hp).mp h.phases
  obtain ⟨-, hroom, rfl⟩ := encoderStep_next hstep
  have hbusy : s.phase ≠ .idle := by simp [hp]
  have hk := keepsStatus_encoderStep s (s.rd + scanCount s.buf s.len s.rd)
  have hcnt : (loadCount s).cnt.toNat = scanCount s.buf s.len s.rd := scanCount_toNat _ _ _
  have hwr' : (emitted (loadCount s)).wr ≤ s.rd + scanCount s.buf s.len s.rd := by
    have hgrow := emitted_wr_le (hcnt ▸ scanCount_pos s.buf s.len s.rd)
    rw [hcnt, loadCount_wr] at hgrow
    omega
  have hrd' : s.rd + scanCount s.buf s.len s.rd ≤ s.len := scanCount_le_len s.buf hlt
  refine h.of_keepsStatus hbusy hk (by simpa using hbusy) (emitted_wf h.bufWf hroom) (hrd'.trans hlen)
    ((hwr'.trans hrd').trans hlen) ((phaseInv_of_enc (by simpa using hp)).mpr ⟨by simpa using hscr, hwr', ?_, ?_⟩)
  · rwa [hk.len]
  · rwa [hk.len, hk.cap]

/-- The snapshot is as long as the stream (41_decoder R93, R94). -/
theorem snapshotStep {s : State} (h : Inv s) (hp : s.phase = .decCopy) : Inv (Machine.snapshotStep s) := by
  obtain ⟨-, -, hlen⟩ := (phaseInv_of_decCopy hp).mp h.phases
  refine h.of_keepsStatus (by simp [hp]) ⟨rfl, rfl, rfl, rfl, rfl, rfl, rfl, rfl⟩ (by simp) h.bufWf
    (Nat.zero_le _) (Nat.zero_le _) ?_
  exact (phaseInv_of_dec rfl).mpr ⟨⟨_, rfl, Memory.wf_snapshot h.bufWf _, rfl⟩, Nat.zero_le _, hlen, Nat.zero_le _⟩

/-- A step of the decoder that keeps what it does not write stays legal, where the cursors stay in range. -/
theorem of_decoding {s t : State} (h : Inv s) (hp : s.phase = .dec) (hk : KeepsStatus s t) (hp' : t.phase = s.phase)
    (hscr' : t.scr = s.scr) (hbuf : t.buf.wf) (hrd : t.rd ≤ s.len) (hwr : t.wr ≤ s.cap) : Inv t := by
  obtain ⟨hscr, -, hlen, -⟩ := (phaseInv_of_dec hp).mp h.phases
  refine h.of_keepsStatus (by simp [hp]) hk (by simp [hp', hp]) hbuf (hrd.trans hlen) hwr ?_
  rw [phaseInv_of_dec (hp'.trans hp), hscr', hk.len, hk.cap]
  exact ⟨hscr, hrd, hlen, hwr⟩

/-- A token is read inside `len`, and its overrun check keeps `wr` inside `BUF` (41_decoder R95 to R97, R105). -/
theorem decoderStep {s t : State} (h : Inv s) (hp : s.phase = .dec) (hlt : s.rd < s.len)
    (hstep : Machine.decoderStep s = .next t) : Inv t := by
  obtain ⟨m, -, -, ⟨hnext, -, hrun⟩ | ⟨-, hlit⟩⟩ := decoderStep_next hstep
  · obtain ⟨hroom, rfl⟩ := execRun_next hrun
    exact h.of_decoding hp ⟨Memory.fillRun_size .., rfl, rfl, rfl, rfl, rfl, rfl, rfl⟩ rfl rfl
      (Memory.wf_fillRun h.bufWf hroom _) hnext hroom
  · obtain ⟨hroom, rfl⟩ := execLit_next hlit
    exact h.of_decoding hp ⟨rfl, rfl, rfl, rfl, rfl, rfl, rfl, rfl⟩ rfl rfl (Memory.wf_set h.bufWf hroom _) hlt hroom

/-- One algorithmic step of the core, in every phase (10_state R19 (b)). -/
theorem coreStep {s t : State} (h : Inv s) (hstep : Machine.coreStep s = .next t) : Inv t := by
  obtain ⟨-, rfl⟩ | ⟨hp, hlt, henc⟩ | ⟨hp, -, rfl⟩ | ⟨hp, rfl⟩ | ⟨hp, hlt, hdec⟩ | ⟨hp, -, rfl⟩ :=
    coreStep_next hstep
  case inl => exact h
  case inr.inl => exact h.encoderStep hp hlt henc
  case inr.inr.inl =>
    obtain ⟨hscr, hwr, hrd, hlen⟩ := (phaseInv_of_enc hp).mp h.phases
    exact of_finishCommand h.capPos h.bufWf h.lenInWidth (h.no_error_of_busy (by simp [hp])) hscr (by omega)
  case inr.inr.inr.inl => exact h.snapshotStep hp
  case inr.inr.inr.inr.inl => exact h.decoderStep hp hlt hdec
  case inr.inr.inr.inr.inr =>
    obtain ⟨-, -, -, hwr⟩ := (phaseInv_of_dec hp).mp h.phases
    exact of_finishCommand (s := releaseScratch s) h.capPos h.bufWf h.lenInWidth
      (h.no_error_of_busy (by simp [hp])) rfl hwr

theorem runToEnd {k : Nat} {s t : State} (h : Inv s) (hrun : Machine.runToEnd k s = .next t) : Inv t := by
  induction k generalizing s with
  | zero => cases hrun; exact h
  | succ k ih =>
    by_cases hp : s.phase = .idle
    · rw [runToEnd_idle hp] at hrun; cases hrun; exact h
    · rw [runToEnd_busy hp] at hrun
      obtain ⟨u, hstep, hrest⟩ := andThen_eq_next hrun
      exact ih (h.coreStep hstep) hrest

/-! ### Acceptance and commands -/

/-- Acceptance of `ENCODE` (40_encoder R70 to R72). -/
theorem beginEncode {s : State} (h : Inv s) (hp : s.phase = .idle) {n : Nat} (hn : n ≤ s.cap) :
    Inv (Machine.beginEncode n s) := by
  obtain ⟨hscr, -⟩ := (phaseInv_of_idle hp).mp h.phases
  unfold Machine.beginEncode
  split
  · exact of_finishCommand h.capPos h.bufWf h.lenInWidth ⟨rfl, rfl⟩ hscr (Nat.zero_le _)
  · exact {
      capPos := h.capPos
      bufWf := h.bufWf
      busyIff := rfl
      doneIdle := nofun
      errCause := .inl ⟨rfl, rfl⟩
      widths := ⟨Nat.two_pow_pos _, Nat.two_pow_pos _, lt_two_pow_of_le_cap hn, freeLen_lt s _⟩
      lenInWidth := h.lenInWidth
      phases := ⟨hscr, le_rfl, Nat.zero_le _, hn⟩ }

/-- Acceptance of `DECODE`: the empty stream, the start of the copy, or `AllocationFailure` (41_decoder R90 to R92,
R104). -/
theorem beginDecode {s : State} (h : Inv s) (hp : s.phase = .idle) {n : Nat} (hn : n ≤ s.cap) :
    Inv (Machine.beginDecode n s) := by
  obtain ⟨hscr, -⟩ := (phaseInv_of_idle hp).mp h.phases
  obtain ⟨hrd, hwr, -, -⟩ := h.widths
  unfold Machine.beginDecode
  split
  · exact of_finishCommand h.capPos h.bufWf h.lenInWidth ⟨rfl, rfl⟩ hscr (Nat.zero_le _)
  · next hpos =>
    split
    · exact {
        capPos := h.capPos
        bufWf := h.bufWf
        busyIff := rfl
        doneIdle := nofun
        errCause := .inl ⟨rfl, rfl⟩
        widths := ⟨hrd, hwr, lt_two_pow_of_le_cap hn, freeLen_lt s _⟩
        lenInWidth := h.lenInWidth
        phases := ⟨hscr, Nat.one_le_iff_ne_zero.mpr hpos, hn⟩ }
    · exact {
        capPos := h.capPos
        bufWf := h.bufWf
        busyIff := by simp [busyOf]
        doneIdle := fun _ => rfl
        errCause := .inr ⟨rfl, rfl, rfl, rfl⟩
        widths := ⟨hrd, hwr, lt_two_pow_of_le_cap hn, Nat.two_pow_pos _⟩
        lenInWidth := h.lenInWidth
        phases := ⟨hscr, Nat.zero_le _⟩ }

/-- Behind the checks before acceptance only the accepted case is left to show (60_exceptions R145). -/
theorem ifAccepted {n : Nat} {s t : State} {f : State → Host.Outcome State Fault Refusal} (h : Inv s)
    (hf : s.phase = .idle → n ≤ s.cap → f s = .next t → Inv t) (hstep : Machine.ifAccepted n s f = .next t) :
    Inv t := by
  obtain ⟨-, rfl⟩ | ⟨hp, hn, hs⟩ := ifAccepted_next hstep
  · exact h
  · exact hf hp hn hs

/-- A command shown stepwise: its acceptance alone (92 D1). -/
theorem launchCommand {op : BitVec 1} {n : Nat} {s t : State} (h : Inv s)
    (hstep : Machine.launchCommand op n s = .next t) : Inv t := by
  refine h.ifAccepted (fun hp hn hs => ?_) hstep
  cases hs
  split
  · exact h.beginEncode hp hn
  · exact h.beginDecode hp hn

/-- A whole command as one transition (92 D1). -/
theorem exec_decodeCommand {op : BitVec 1} {n : Nat} {s t : State} (h : Inv s)
    (hstep : exec (decodeCommand op n) s = .next t) : Inv t := by
  unfold decodeCommand at hstep
  split at hstep
  · exact h.ifAccepted (f := fun s => Machine.runToEnd (n + 1) (Machine.beginEncode n s))
      (fun hp hn hs => (h.beginEncode hp hn).runToEnd hs) hstep
  · exact h.ifAccepted (f := fun s => Machine.runToEnd (n + 2) (Machine.beginDecode n s))
      (fun hp hn hs => (h.beginDecode hp hn).runToEnd hs) hstep

/-! ### Moves and the step -/

/-- `RST` (70_reset R160, R162): the free lengths have `LW` bits of an unchanged `CAP`. -/
theorem resetEvent {s : State} (h : Inv s) : Inv (Machine.resetEvent s) := by
  have hcap : (Machine.resetEvent s).cap = s.cap := Memory.anyBytes_size _ _
  exact {
    capPos := hcap ▸ h.capPos
    bufWf := Memory.wf_anyBytes _ _
    busyIff := rfl
    doneIdle := nofun
    errCause := .inl ⟨rfl, rfl⟩
    widths := hcap ▸ ⟨freeLen_lt s _, freeLen_lt s _, freeLen_lt s _, Nat.two_pow_pos _⟩
    lenInWidth := hcap ▸ h.lenInWidth
    phases := ⟨rfl, Nat.zero_le _⟩ }

/-- Every move of host and environment (60_exceptions R152). -/
theorem takeMove {e : Event} {s t : State} (h : Inv s) (hstep : Machine.takeMove e s = .next t) : Inv t := by
  obtain ⟨i, b, -, -, hi, rfl⟩ | ⟨op, n, w, -, hn, rfl⟩ | ⟨ok, -, rfl⟩ | ⟨-, rfl⟩ | ⟨-, hcore⟩ :=
    takeMove_next hstep
  case inl =>
    exact ⟨h.capPos, Memory.wf_set h.bufWf hi b, h.busyIff, h.doneIdle, h.errCause, h.widths, h.lenInWidth, h.phases⟩
  case inr.inl => exact h.set_control hn op true w s.scratchOk s.script
  case inr.inr.inl => exact h.set_control h.lenInWidth s.op s.start s.stepwise ok s.script
  case inr.inr.inr.inl => exact h.resetEvent
  case inr.inr.inr.inr => exact h.coreStep hcore

end Inv

/-- Settles O44: a step takes a pending `START`, stepwise or whole, or else a move or the core's turn, and each of the
four keeps the invariant. -/
theorem stepKeepsInv : Obligations.StepKeepsInv := by
  intro s t h hstep
  have htaken : Inv { s with start := false } :=
    h.set_control h.lenInWidth s.op false s.stepwise s.scratchOk s.script
  obtain ⟨-, -, hlaunch⟩ | ⟨-, -, hexec⟩ | ⟨-, -, hcore⟩ | ⟨e, rest, -, -, hmove⟩ := step_next hstep
  · exact htaken.launchCommand hlaunch
  · exact htaken.exec_decodeCommand hexec
  · exact h.coreStep hcore
  · exact (h.set_control h.lenInWidth s.op s.start s.stepwise s.scratchOk rest).takeMove hmove

end Sys2Proof
end

section
/-! The command fields and the running command: the algorithmic steps neither read nor write `OP`, `LEN_IN`, `START`
and the stepwise mark (10_state R15, R27). -/

namespace Sys2Proof.Machine

/-! ### The algorithmic step in each phase -/

theorem decoderStep_of_no_scratch {s : State} (hm : s.scr = none) : decoderStep s = .fault .scratchRange := by
  rw [decoderStep, hm]

theorem decoderStep_of_short_scratch {s : State} {m : Memory} (hm : s.scr = some m) (hs : m.size < s.len) :
    decoderStep s = .fault .scratchRange := by
  simp [decoderStep, hm, hs]

theorem coreStep_of_idle {s : State} (hp : s.phase = .idle) : coreStep s = .next s := by rw [coreStep, hp]

theorem coreStep_of_enc {s : State} (hp : s.phase = .enc) :
    coreStep s = if s.rd < s.len then encoderStep s else .next (finishCommand s) := by
  rw [coreStep, hp]

theorem coreStep_of_decCopy {s : State} (hp : s.phase = .decCopy) : coreStep s = .next (snapshotStep s) := by
  rw [coreStep, hp]

theorem coreStep_of_dec {s : State} (hp : s.phase = .dec) :
    coreStep s = if s.rd < s.len then decoderStep s else .next (finishCommand (releaseScratch s)) := by
  rw [coreStep, hp]

/-! ### What it means to ignore the command fields -/

/-- Values for the fields a host writes to give a command (10_state R20), with the model's own stepwise mark (log 5). -/
structure CommandFields where
  op : BitVec 1
  lenIn : Nat
  start : Bool
  stepwise : Bool

/-- The state with its command fields written. -/
def CommandFields.put (f : CommandFields) (s : State) : State :=
  { s with op := f.op, lenIn := f.lenIn, start := f.start, stepwise := f.stepwise }

/-- A part of a step goes the same way whatever the command fields hold, and leaves them as they are. -/
def IgnoresFields (o : State → Host.Outcome State Fault Refusal) : Prop :=
  ∀ (f : CommandFields) (s : State), o (f.put s) = andThen (o s) fun t => .next (f.put t)

namespace IgnoresFields

variable {o o' : State → Host.Outcome State Fault Refusal}

theorem fault (r : Fault) : IgnoresFields fun _ => .fault r := fun _ _ => rfl

theorem next {u : State → State} (h : ∀ (f : CommandFields) (s : State), u (f.put s) = f.put (u s)) :
    IgnoresFields fun s => .next (u s) :=
  fun f s => congrArg Host.Outcome.next (h f s)

theorem andThen (h : IgnoresFields o) (h' : IgnoresFields o') :
    IgnoresFields fun s => Machine.andThen (o s) o' := by
  intro f s
  calc Machine.andThen (o (f.put s)) o'
      = Machine.andThen (o s) fun t => o' (f.put t) := by rw [h, andThen_assoc]; rfl
    _ = Machine.andThen (o s) fun t => Machine.andThen (o' t) fun u => .next (f.put u) := by simp only [h' f]
    _ = _ := (andThen_assoc _ _ _).symm

theorem ite {c : State → Prop} [DecidablePred c] (hc : ∀ (f : CommandFields) (s : State), c (f.put s) ↔ c s)
    (h : IgnoresFields o) (h' : IgnoresFields o') : IgnoresFields fun s => if c s then o s else o' s := by
  intro f s
  by_cases hs : c s
  · simp only [if_pos hs, if_pos ((hc f s).mpr hs), h f s]
  · simp only [if_neg hs, if_neg (mt (hc f s).mp hs), h' f s]

/-- A store at an address and of a byte that do not depend on the command fields. -/
theorem storeBuf {i : State → Nat} {b : State → Byte} (hi : ∀ (f : CommandFields) (s : State), i (f.put s) = i s)
    (hb : ∀ (f : CommandFields) (s : State), b (f.put s) = b s) :
    IgnoresFields fun s => Machine.storeBuf (i s) (b s) s :=
  ite (c := fun s => i s < s.cap) (fun f s => by rw [hi]; rfl)
    (next fun f s => by rw [hi, hb]; rfl) (fault _)

/-! ### The parts of an algorithmic step -/

theorem emitRun : IgnoresFields Machine.emitRun :=
  (storeBuf (fun _ _ => rfl) fun _ _ => rfl).andThen
    ((storeBuf (i := fun s => s.wr + 1) (b := fun s => orFlag s.cur) (fun _ _ => rfl) fun _ _ => rfl).andThen
      (next fun _ _ => rfl))

theorem emitLit : IgnoresFields Machine.emitLit :=
  (storeBuf (b := fun s => andMask s.cur) (fun _ _ => rfl) fun _ _ => rfl).andThen (next fun _ _ => rfl)

theorem encoderStep : IgnoresFields Machine.encoderStep := by
  have hemit : IgnoresFields fun s => if moreThanOne s.cnt then Machine.emitRun s else Machine.emitLit s :=
    ite (fun _ _ => Iff.rfl) emitRun emitLit
  have hload : IgnoresFields fun s => .next (loadCount s) := next fun _ _ => rfl
  exact ite (c := fun s => s.cap < s.len) (fun _ _ => Iff.rfl) (fault _)
    ((hload.andThen hemit).andThen (next (u := fun s => { s with rd := s.rd + s.cnt.toNat }) fun _ _ => rfl))

theorem execRun (c : Byte) (v : BitVec 7) : IgnoresFields (Machine.execRun c v) :=
  ite (fun _ _ => Iff.rfl) (fault _) (next fun _ _ => rfl)

theorem execLit (b : Byte) : IgnoresFields (Machine.execLit b) :=
  ite (fun _ _ => Iff.rfl) (fault _) (next fun _ _ => rfl)

/-- The window is read from `SCR` at `rd`, and the token in it is performed: no command field is looked at. -/
theorem decoderStep : IgnoresFields Machine.decoderStep := by
  intro f s
  cases hm : s.scr with
  | none => rw [decoderStep_of_no_scratch hm, decoderStep_of_no_scratch (s := f.put s) hm]; rfl
  | some m =>
    by_cases hs : s.len ≤ m.size
    · rw [decoderStep_eq hm hs, decoderStep_eq (s := f.put s) hm hs]
      exact ite (c := fun _ => isRun m s.len s.rd = true) (fun _ _ => Iff.rfl)
        (execRun (m.get s.rd) (valueBits (m.get (s.rd + 1)))) (execLit (m.get s.rd)) f s
    · have hshort : m.size < s.len := by omega
      rw [decoderStep_of_short_scratch hm hshort, decoderStep_of_short_scratch (s := f.put s) hm hshort]; rfl

theorem coreStep : IgnoresFields Machine.coreStep := by
  intro f s
  have hfinish : IgnoresFields fun s => .next (finishCommand s) := next fun _ _ => rfl
  have hrelease : IgnoresFields fun s => .next (finishCommand (releaseScratch s)) := next fun _ _ => rfl
  cases hp : s.phase with
  | idle => rw [coreStep_of_idle hp, coreStep_of_idle (s := f.put s) hp]; rfl
  | enc =>
    rw [coreStep_of_enc hp, coreStep_of_enc (s := f.put s) hp]
    exact ite (c := fun s => s.rd < s.len) (fun _ _ => Iff.rfl) encoderStep hfinish f s
  | decCopy => rw [coreStep_of_decCopy hp, coreStep_of_decCopy (s := f.put s) hp]; rfl
  | dec =>
    rw [coreStep_of_dec hp, coreStep_of_dec (s := f.put s) hp]
    exact ite (c := fun s => s.rd < s.len) (fun _ _ => Iff.rfl) decoderStep hrelease f s

end IgnoresFields

/-- Settles O16: each part of the algorithmic step ignores the command fields, and so does the step. -/
theorem commandFieldsDoNotDisturb : Obligations.CommandFieldsDoNotDisturb := fun s op n b w =>
  IgnoresFields.coreStep ⟨op, n, b, w⟩ s

/-! ### A pending `START` and the reset -/

theorem step_of_stepwise {s : State} (hs : s.start = true) (hw : s.stepwise = true) :
    step s = launchCommand s.op s.lenIn { s with start := false } := by
  rw [step, if_pos hs, if_pos hw]

theorem step_of_whole {s : State} (hs : s.start = true) (hw : s.stepwise = false) :
    step s = exec (decodeCommand s.op s.lenIn) { s with start := false } := by
  rw [step, if_pos hs, if_neg (by simp [hw])]

theorem launchCommand_idle {s : State} {n : Nat} (hp : s.phase = .idle) (hn : n ≤ s.cap) (op : BitVec 1) :
    launchCommand op n s = .next (if op = 0#1 then beginEncode n s else beginDecode n s) :=
  ifAccepted_idle hp hn

/-- Acceptance of an `ENCODE` of at least one byte (40_encoder R70, R72). -/
theorem beginEncode_of_pos {n : Nat} (hn : 0 < n) (s : State) :
    beginEncode n s = { acceptCommand n s with phase := .enc, rd := 0, wr := 0 } :=
  if_neg hn.ne'

/-- Acceptance of a `DECODE` of at least one byte with scratch (41_decoder R90, R92). -/
theorem beginDecode_of_scratch {n : Nat} {s : State} (hn : 0 < n) (hok : s.scratchOk = true) :
    beginDecode n s = { acceptCommand n s with phase := .decCopy } := by
  rw [beginDecode, if_neg hn.ne', if_pos hok]

/-- Settles O36: the step is the acceptance, and past its checks both commands latch the operand. -/
theorem acceptanceLatchesOperand : Obligations.AcceptanceLatchesOperand := by
  intro s hs hw hp hpos hcap hok
  have haccept := (step_of_stepwise hs hw).trans (launchCommand_idle (s := { s with start := false }) hp hcap s.op)
  by_cases hop : s.op = 0#1
  · rw [if_pos hop, beginEncode_of_pos hpos] at haccept
    exact ⟨_, haccept, by simp [hop]⟩
  · have hscratch : s.scratchOk = true := hok (by bv_omega)
    rw [if_neg hop, beginDecode_of_scratch (s := { s with start := false }) hpos hscratch] at haccept
    exact ⟨_, haccept, by simp [hop]⟩

/-- Settles O39: the fields of `State.reset` the spec gives a value (10_state R25). -/
theorem resetValues : Obligations.ResetValues := ⟨rfl, rfl, rfl, rfl, rfl, rfl, rfl⟩

/-- Settles O41: a command not shown stepwise runs whole, the command `OP` and `LEN_IN` name (30_encoding R51). -/
theorem stepRunsCommand : Obligations.StepRunsCommand := fun _ hs hw => step_of_whole hs hw

end Sys2Proof.Machine
end

section
/-! Access to the two byte arrays (20_memory R40 to R43): the host writes `BUF` only while idle, and a decoder step
takes its tokens from `SCR` alone. -/

namespace Sys2Proof.Machine

/-! ### The host's writes -/

/-- A host write below `CAP` while idle stores its byte (20_memory R43). -/
theorem hostWrite_of_idle {s : State} {i : Nat} (hp : s.phase = .idle) (hi : i < s.cap) (b : Byte) :
    hostWrite i b s = .next { s with buf := s.buf.set i b } := by
  rw [hostWrite, if_neg (not_not_intro hp), storeBuf_of_lt hi]

/-- The host has no move on `BUF` while a command runs (20_memory R43; log 13). -/
theorem hostWrite_of_busy {s : State} (hp : s.phase ≠ .idle) (i : Nat) (b : Byte) :
    hostWrite i b s = .refused .hostOwnership := if_pos hp

/-- Settles O40: the step is the move, and `hostWrite` has the two cases of the statement. -/
theorem hostWritesOnlyWhileIdle : Obligations.HostWritesOnlyWhileIdle := by
  intro s i b rest hs hl hbuf hi
  rw [step_of_script hs hl]
  split
  · next hp =>
    exact ⟨_, hostWrite_of_idle (s := { s with script := rest }) hp hi b,
      fun j => Memory.get_set hbuf j i b, Memory.wf_set hbuf hi b, rfl, rfl⟩
  · next hp => exact hostWrite_of_busy (s := { s with script := rest }) hp i b

/-! ### The tokens, where their bytes fit and where they overrun -/

theorem execRun_of_room {c : Byte} {s : State} (h : s.wr + c.toNat ≤ s.cap) (v : BitVec 7) :
    execRun c v s = .next { s with
      cur := c, cnt := c, val := valueByte v, buf := s.buf.fillRun s.wr (valueByte v) c.toNat
      wr := s.wr + c.toNat, rd := s.rd + 2 } :=
  if_neg (by simpa [overruns] using h)

theorem execRun_of_overrun {c : Byte} {s : State} (h : s.cap < s.wr + c.toNat) (v : BitVec 7) :
    execRun c v s = .fault .destOverrun := if_pos (decide_eq_true h)

theorem execLit_of_room {s : State} (h : s.wr + 1 ≤ s.cap) (b : Byte) :
    execLit b s = .next { s with cur := b, buf := s.buf.set s.wr b, wr := s.wr + 1, rd := s.rd + 1 } :=
  if_neg (by simpa [overruns] using h)

theorem execLit_of_overrun {s : State} (h : s.cap < s.wr + 1) (b : Byte) :
    execLit b s = .fault .destOverrun := if_pos (decide_eq_true h)

/-! ### Two runs that differ in `BUF` -/

/-- Each byte is the same in `n` and `n'`, or is left in both as it was in `m` and `m'`. -/
def SameOrKept (m m' n n' : Memory) : Prop := ∀ i, n.get i = n'.get i ∨ n.get i = m.get i ∧ n'.get i = m'.get i

theorem SameOrKept.kept (m m' : Memory) : SameOrKept m m' m m' := fun _ => .inr ⟨rfl, rfl⟩

theorem SameOrKept.set {m m' : Memory} (h : m.wf) (h' : m'.wf) (i : Nat) (b : Byte) :
    SameOrKept m m' (m.set i b) (m'.set i b) := by
  intro a
  rw [Memory.get_set h, Memory.get_set h']
  split
  · exact .inl rfl
  · exact .inr ⟨rfl, rfl⟩

theorem SameOrKept.fillRun {m m' : Memory} (h : m.wf) (h' : m'.wf) {i n : Nat} (hi : i + n ≤ m.size)
    (hi' : i + n ≤ m'.size) (b : Byte) : SameOrKept m m' (m.fillRun i b n) (m'.fillRun i b n) := by
  intro a
  rw [Memory.get_fillRun h hi, Memory.get_fillRun h' hi']
  split
  · exact .inl rfl
  · exact .inr ⟨rfl, rfl⟩

/-- The state with another memory as `BUF`. -/
def State.withBuf (s : State) (b : Memory) : State := { s with buf := b }

@[simp] theorem State.withBuf_buf (s : State) (b : Memory) : (s.withBuf b).buf = b := rfl
@[simp] theorem State.withBuf_rd (s : State) (b : Memory) : (s.withBuf b).rd = s.rd := rfl
@[simp] theorem State.withBuf_len (s : State) (b : Memory) : (s.withBuf b).len = s.len := rfl

/-- Completion leaves `BUF` alone; the free lengths it draws depend on `CAP`, not on the bytes (41_decoder R100). -/
theorem finishCommand_withBuf {s : State} {b : Memory} (hb : b.size = s.buf.size) :
    finishCommand (s.withBuf b) = (finishCommand s).withBuf b := by
  simp [finishCommand, forgetRegisters, freeLen, State.cap, State.withBuf, hb]

/-- Outcomes from two states that differ only in their `BUF`s `m` and `m'`: no difference outside the bytes of `BUF`,
and none in the bytes that were written. -/
inductive AgreeOffBuf (m m' : Memory) :
    Host.Outcome State Fault Refusal → Host.Outcome State Fault Refusal → Prop where
  | next {t : State} {n : Memory} (size : n.size = t.buf.size)
      (bytes : m.wf → m'.wf → SameOrKept m m' t.buf n) : AgreeOffBuf m m' (.next t) (.next (t.withBuf n))
  | fault (r : Fault) : AgreeOffBuf m m' (.fault r) (.fault r)

section
variable {s : State} {b : Memory} (hb : b.size = s.buf.size)
include hb

/-- The overrun check sees only the size of `BUF`, and the fill does not read (41_decoder R96, R105). -/
theorem execRun_agreeOffBuf (c : Byte) (v : BitVec 7) :
    AgreeOffBuf s.buf b (execRun c v s) (execRun c v (s.withBuf b)) := by
  have hcap : (s.withBuf b).cap = s.cap := hb
  by_cases hroom : s.wr + c.toNat ≤ s.cap
  · have hroom' : s.wr + c.toNat ≤ (s.withBuf b).cap := by rwa [hcap]
    rw [execRun_of_room hroom, execRun_of_room (s := s.withBuf b) hroom']
    exact .next (by simpa using hb) fun hs hs' => SameOrKept.fillRun hs hs' hroom hroom' _
  · have hover : s.cap < s.wr + c.toNat := Nat.lt_of_not_le hroom
    rw [execRun_of_overrun hover, execRun_of_overrun (s := s.withBuf b) (by rwa [hcap])]
    exact .fault _

/-- The overrun check sees only the size of `BUF`, and the write does not read (41_decoder R97, R105). -/
theorem execLit_agreeOffBuf (x : Byte) : AgreeOffBuf s.buf b (execLit x s) (execLit x (s.withBuf b)) := by
  have hcap : (s.withBuf b).cap = s.cap := hb
  by_cases hroom : s.wr + 1 ≤ s.cap
  · rw [execLit_of_room hroom, execLit_of_room (s := s.withBuf b) (by rwa [hcap])]
    exact .next hb fun hs hs' => SameOrKept.set hs hs' _ _
  · have hover : s.cap < s.wr + 1 := Nat.lt_of_not_le hroom
    rw [execLit_of_overrun hover, execLit_of_overrun (s := s.withBuf b) (by rwa [hcap])]
    exact .fault _

/-- The window comes from `SCR`, so both runs perform the same token (20_memory R42). -/
theorem decoderStep_agreeOffBuf : AgreeOffBuf s.buf b (decoderStep s) (decoderStep (s.withBuf b)) := by
  cases hm : s.scr with
  | none =>
    rw [decoderStep_of_no_scratch hm, decoderStep_of_no_scratch (s := s.withBuf b) hm]
    exact .fault _
  | some m =>
    by_cases hs : s.len ≤ m.size
    · rw [decoderStep_eq hm hs, decoderStep_eq (s := s.withBuf b) hm hs, State.withBuf_len, State.withBuf_rd]
      split
      · exact execRun_agreeOffBuf hb _ _
      · exact execLit_agreeOffBuf hb _
    · have hshort : m.size < s.len := Nat.lt_of_not_le hs
      rw [decoderStep_of_short_scratch hm hshort, decoderStep_of_short_scratch (s := s.withBuf b) hm hshort]
      exact .fault _

/-- In `DEC` the core takes a decoder step, or completes the command with `BUF` as it is (41_decoder R98). -/
theorem coreStep_agreeOffBuf (hp : s.phase = .dec) :
    AgreeOffBuf s.buf b (coreStep s) (coreStep (s.withBuf b)) := by
  have hrelease : releaseScratch (s.withBuf b) = (releaseScratch s).withBuf b := rfl
  rw [coreStep_of_dec hp, coreStep_of_dec (s := s.withBuf b) hp, hrelease,
    finishCommand_withBuf (s := releaseScratch s) hb, State.withBuf_len, State.withBuf_rd]
  split
  · exact decoderStep_agreeOffBuf hb
  · exact .next hb fun _ _ => SameOrKept.kept _ _

end

/-! ### What the two runs' agreement says of each outcome -/

theorem AgreeOffBuf.of_next {m m' : Memory} {t : State} {o : Host.Outcome State Fault Refusal}
    (h : AgreeOffBuf m m' (.next t) o) :
    ∃ n : Memory, o = .next (t.withBuf n) ∧ n.size = t.buf.size ∧ (m.wf → m'.wf → SameOrKept m m' t.buf n) := by
  cases h with
  | next size bytes => exact ⟨_, rfl, size, bytes⟩

theorem AgreeOffBuf.of_fault {m m' : Memory} {r : Fault} {o : Host.Outcome State Fault Refusal}
    (h : AgreeOffBuf m m' (.fault r) o) : o = .fault r := by
  cases h with
  | fault => rfl

/-- A decoder step writes no byte of `SCR` and does not release it (20_memory R40). -/
theorem decoderStep_scr {s t : State} (h : decoderStep s = .next t) : t.scr = s.scr := by
  obtain ⟨m, -, -, ⟨-, -, hrun⟩ | ⟨-, hlit⟩⟩ := decoderStep_next h
  · obtain ⟨-, rfl⟩ := execRun_next hrun; rfl
  · obtain ⟨-, rfl⟩ := execLit_next hlit; rfl

/-- Settles O15: the two runs agree outside `BUF`, and before the end the step is a decoder step, which keeps `SCR`. -/
theorem decoderReadsOnlyScratch : Obligations.DecoderReadsOnlyScratch := by
  intro s b hp hb
  have hagree := coreStep_agreeOffBuf hb hp
  refine ⟨fun t ht => ⟨?_, fun hlt => ?_⟩, fun f hf => (hf ▸ hagree).of_fault⟩
  · obtain ⟨n, hother, hsize, hbytes⟩ := (ht ▸ hagree).of_next
    exact ⟨t.withBuf n, hother, rfl, hsize, hbytes⟩
  · rw [coreStep_of_dec hp, if_pos hlt] at ht
    exact decoderStep_scr ht

end Sys2Proof.Machine
end

section
/-! The encodings read back (30_encoding R51 to R57), and the one decomposition of a well-formed stream (R63). -/

namespace Sys2Proof

/-! ### Bit operations, and the parser in front of any stream -/

/-- The value byte as the bit operations of 42_arithmetic R112 spell it. -/
theorem valueBits_eq_setWidth (x : Byte) : valueBits x = x.setWidth 7 := by
  revert x; decide +kernel

/-- A flagged byte is the encoding of its own seven value bits: the parser drops no bit (30_encoding R57). -/
theorem orFlag_valueByte_valueBits {x : Byte} (h : topBit x = true) : orFlag (valueByte (valueBits x)) = x := by
  rw [valueByte_valueBits, orFlag_andMask, orFlag_of_flagged x h]

theorem andMask_of_flagged {x : Byte} (h : topBit x = true) : andMask x = x - 128#8 := by
  revert x; decide +kernel

theorem decodeToken_of_flagged (b : Byte) {n : Byte} (h : topBit n = true) (rest : List Byte) :
    decodeToken (b :: n :: rest) = .ok (.run b (valueBits n), rest) := by
  rw [decodeToken_cons_cons, if_pos h]

/-- Without a flagged next byte the current one is a literal, whatever its own top bit (30_encoding R55). -/
theorem decodeToken_of_not_flagged (b : Byte) {rest : List Byte} (h : ∀ n ∈ rest.head?, topBit n = false) :
    decodeToken (b :: rest) = .ok (.lit b, rest) := by
  cases rest with
  | nil => rfl
  | cons n rest =>
    have hn : topBit n = false := h n rfl
    rw [decodeToken_cons_cons, hn, if_neg Bool.false_ne_true]

theorem decodeToken_run (c : Byte) (v : BitVec 7) (rest : List Byte) :
    decodeToken (tokenBytes (.run c v) ++ rest) = .ok (.run c v, rest) := by
  have h := decodeToken_of_flagged c (topBit_orFlag (valueByte v)) rest
  rwa [valueBits_orFlag, valueBits_valueByte] at h

/-! ### Command words -/

theorem decode_command_of_fits {lw w : Nat} (h : commandLen w < 2 ^ lw) :
    decode lw (.command w) = .ok (decodeCommand (commandOp w) (commandLen w), []) := if_pos h

theorem commandLen_double (n : Nat) : commandLen (2 * n) = n := by unfold commandLen; omega

theorem commandLen_double_add_one (n : Nat) : commandLen (2 * n + 1) = n := by unfold commandLen; omega

/-- Settles O2: the fields of a command word are read back, and a token alone is a token before the empty rest. -/
theorem decodeOfEncode : Obligations.DecodeOfEncode := by
  intro lw i hi
  cases i with
  | encode n =>
    have hn : commandLen (2 * n) < 2 ^ lw := by rw [commandLen_double]; exact of_decide_eq_true hi
    rw [encode, decode_command_of_fits hn, commandOp_double, commandLen_double]; rfl
  | decode n =>
    have hn : commandLen (2 * n + 1) < 2 ^ lw := by rw [commandLen_double_add_one]; exact of_decide_eq_true hi
    rw [encode, decode_command_of_fits hn, commandOp_double_add_one, commandLen_double_add_one]; rfl
  | run c v => exact decodeToken_run c v []
  | lit b => rfl

/-! ### One decomposition -/

theorem asm_append (T U : List Instr) : asm (T ++ U) = asm T ++ asm U := by
  induction T with
  | nil => rfl
  | cons t T ih => rw [List.cons_append, asm, asm, ih, List.append_assoc]

@[simp] theorem asm_singleton (t : Instr) : asm [t] = tokenBytes t := List.append_nil _

theorem topBit_of_lit_wellFormed {b : Byte} (h : (Instr.lit b).tokenWellFormed = true) : topBit b = false :=
  (topBit_eq_false_iff b).mpr (of_decide_eq_true h)

theorem tokenBytes_ne_nil {t : Instr} (h : t.tokenWellFormed = true) : tokenBytes t ≠ [] := by
  cases t with
  | encode n => cases h
  | decode n => cases h
  | run c v => exact List.cons_ne_nil _ _
  | lit b => exact List.cons_ne_nil _ _

/-- Whether the last byte of a stream is flagged says whether its last well-formed token is a run. -/
theorem append_lit_ne_append_run {b c : Byte} (hb : topBit b = false) (v : BitVec 7) (xs ys : List Byte) :
    xs ++ tokenBytes (.lit b) ≠ ys ++ tokenBytes (.run c v) := by
  intro h
  have hrun : ys ++ tokenBytes (.run c v) = (ys ++ [c]) ++ [orFlag (valueByte v)] := by simp [tokenBytes]
  obtain ⟨-, hlast⟩ := List.append_inj' (h.trans hrun) rfl
  cases hlast
  rw [topBit_orFlag] at hb
  cases hb

/-- Read from the right, a stream ends in one well-formed token only (30_encoding R63). -/
theorem append_tokenBytes_inj {t u : Instr} (ht : t.tokenWellFormed = true) (hu : u.tokenWellFormed = true)
    {xs ys : List Byte} (h : xs ++ tokenBytes t = ys ++ tokenBytes u) : xs = ys ∧ t = u := by
  match t, u, ht, hu with
  | .run c v, .run d w, _, _ =>
    obtain ⟨hxs, hlast⟩ := List.append_inj' h rfl
    obtain ⟨rfl, hflag⟩ : c = d ∧ orFlag (valueByte v) = orFlag (valueByte w) := by simpa [tokenBytes] using hlast
    have hv : v = w := by simpa using congrArg valueBits hflag
    exact ⟨hxs, hv ▸ rfl⟩
  | .lit b, .lit d, _, _ =>
    obtain ⟨hxs, hlast⟩ := List.append_inj' h rfl
    cases hlast
    exact ⟨hxs, rfl⟩
  | .lit b, .run d w, ht, _ => exact absurd h (append_lit_ne_append_run (topBit_of_lit_wellFormed ht) w xs ys)
  | .run c v, .lit d, _, hu => exact absurd h.symm (append_lit_ne_append_run (topBit_of_lit_wellFormed hu) v ys xs)

/-- Settles O8, from the right: equal streams end in the same token, and what stands before it is equal again. -/
theorem wellFormedStreamDecomposesOnce : Obligations.WellFormedStreamDecomposesOnce := by
  intro T
  induction T using List.reverseRecOn with
  | nil =>
    intro U _ hU h
    cases U with
    | nil => rfl
    | cons u U => exact absurd (List.append_eq_nil_iff.mp h.symm).1 (tokenBytes_ne_nil (hU u List.mem_cons_self))
  | append_singleton T t ih =>
    intro U hT hU h
    have ht := hT t List.mem_concat_self
    rw [asm_append, asm_singleton] at h
    cases U using List.reverseRecOn with
    | nil => exact absurd (List.append_eq_nil_iff.mp h).2 (tokenBytes_ne_nil ht)
    | append_singleton U u =>
      rw [asm_append, asm_singleton] at h
      obtain ⟨hasm, rfl⟩ := append_tokenBytes_inj ht (hU u List.mem_concat_self) h
      rw [ih U (fun x hx => hT x (List.mem_append_left _ hx)) (fun x hx => hU x (List.mem_append_left _ hx)) hasm]

/-! ### The statements about one token -/

/-- Settles O3: a run carries its own flag, and before a byte that is not flagged the current byte is a literal. -/
theorem tokenDecodesInStream : Obligations.TokenDecodesInStream := by
  intro t rest ht hlit
  cases t with
  | encode n => cases ht
  | decode n => cases ht
  | run c v => exact decodeToken_run c v rest
  | lit b =>
    exact decodeToken_of_not_flagged b fun n hn => (topBit_eq_false_iff n).mpr (hlit ⟨b, rfl⟩ n hn)

/-- Settles O4: the next byte, if there is one, is flagged or it is not. -/
theorem parserTotal : Obligations.ParserTotal := by
  intro b bs
  match bs with
  | [] => exact ⟨.lit b, [], rfl, rfl, rfl⟩
  | n :: rest =>
    cases hn : topBit n with
    | true =>
      refine ⟨.run b (valueBits n), rest, decodeToken_of_flagged b hn rest, rfl, ?_⟩
      rw [tokenBytes, orFlag_valueByte_valueBits hn]; rfl
    | false =>
      refine ⟨.lit b, n :: rest, decodeToken_of_not_flagged b fun x hx => ?_, rfl, rfl⟩
      cases hx
      exact hn

/-- Settles O1: each word is written out, so the decoder is evaluated on it. -/
theorem specWordsDecode : Obligations.SpecWordsDecode := ⟨rfl, rfl, rfl, rfl, rfl, rfl, rfl, rfl⟩

/-- Settles O5: the window is one byte, or two of which the second is flagged or not. -/
theorem runExactlyWhenNextByteFlagged : Obligations.RunExactlyWhenNextByteFlagged := by
  intro m len rd _
  rcases Machine.tokenWindow_cases m len rd with ⟨hlt, hw⟩ | ⟨hge, hw⟩ <;> rw [hw]
  · by_cases hn : topBit (m.get (rd + 1)) = true
    · refine ⟨_, _, decodeToken_of_flagged _ hn [], ?_⟩
      rw [if_pos ⟨hlt, (topBit_eq_true_iff _).mp hn⟩, valueBits_eq_setWidth]
      exact ⟨rfl, rfl⟩
    · refine ⟨_, _, decodeToken_of_not_flagged (m.get rd) (rest := [m.get (rd + 1)]) (by simpa using hn), ?_⟩
      rw [if_neg fun h => hn ((topBit_eq_true_iff _).mpr h.2)]
      exact ⟨rfl, rfl⟩
  · refine ⟨.lit (m.get rd), [], rfl, ?_⟩
    rw [if_neg fun h => by omega]
    exact ⟨rfl, rfl⟩

end Sys2Proof
end

section
/-! `Tok` (40_encoder R78): its recursion, its tokens, and the cutting of equal bytes (30_encoding R60, R62). -/

namespace Sys2Proof

/-! ### The recursion of `Tok` -/

theorem leadCount_le_room (v : Byte) (room : Nat) (B : List Byte) : leadCount v room B ≤ room := by
  induction room generalizing B with
  | zero => exact Nat.zero_le _
  | succ room ih =>
    cases B with
    | nil => exact Nat.zero_le _
    | cons b B =>
      have := ih B
      rw [leadCount]
      split <;> omega

theorem leadCount_cons_of_ne {v b : Byte} (h : b ≠ v) (room : Nat) (B : List Byte) : leadCount v room (b :: B) = 0 := by
  cases room with
  | zero => rfl
  | succ room => rw [leadCount, if_neg h]

theorem leadCount_replicate (v : Byte) (room n : Nat) : leadCount v room (List.replicate n v) = min room n := by
  induction room generalizing n with
  | zero => simp [leadCount]
  | succ room ih =>
    cases n with
    | zero => rfl
    | succ n => rw [List.replicate_succ, leadCount, if_pos rfl, ih]; omega

/-- A bound of the length or more does not cut `Tok` off: each token takes at least one byte. -/
theorem tokUpTo_eq_tokUpTo {f g : Nat} {B : List Byte} (hf : B.length ≤ f) (hg : B.length ≤ g) :
    tokUpTo f B = tokUpTo g B := by
  induction f generalizing g B with
  | zero =>
    obtain rfl : B = [] := List.length_eq_zero_iff.mp (Nat.le_zero.mp hf)
    cases g <;> rfl
  | succ f ih =>
    match g, B with
    | 0, [] => rfl
    | _ + 1, [] => rfl
    | g + 1, v :: rest =>
      have hdrop : (rest.drop (leadCount v 254 rest)).length ≤ rest.length := by simp
      rw [List.length_cons] at hf hg
      rw [tokUpTo, tokUpTo, ih (g := g) (by omega) (by omega)]

@[simp] theorem tok_nil : tok [] = [] := rfl

/-- One step of `Tok` (40_encoder R78): the longest run of equal leading bytes, at most 255, is one token. -/
theorem tok_cons (v : Byte) (B : List Byte) :
    tok (v :: B) = tokenFor v (leadCount v 254 B + 1) :: tok (B.drop (leadCount v 254 B)) := by
  have hrest : tokUpTo B.length (B.drop (leadCount v 254 B)) = tok (B.drop (leadCount v 254 B)) :=
    tokUpTo_eq_tokUpTo (by simp) le_rfl
  rw [← hrest]; rfl

/-! ### Its tokens -/

theorem tokenFor_one (v : Byte) : tokenFor v 1 = .lit (andMask v) := rfl

theorem tokenFor_of_one_lt (v : Byte) {k : Nat} (h : 1 < k) : tokenFor v k = .run (BitVec.ofNat 8 k) (valueBits v) :=
  if_pos h

theorem toNat_ofNat_of_le_maxRun {k : Nat} (h : k ≤ 255) : (BitVec.ofNat 8 k).toNat = k := by
  rw [BitVec.toNat_ofNat]; exact Nat.mod_eq_of_lt (by omega)

theorem tokenFor_wellFormed (v : Byte) {k : Nat} (h : k ≤ 255) : (tokenFor v k).tokenWellFormed = true := by
  by_cases hk : 1 < k
  · rw [tokenFor_of_one_lt v hk]
    exact decide_eq_true (by rw [toNat_ofNat_of_le_maxRun h]; exact hk)
  · rw [tokenFor, if_neg hk]
    exact decide_eq_true ((topBit_eq_false_iff _).mp (topBit_andMask v))

theorem tokUpTo_wellFormed {f : Nat} {B : List Byte} {t : Instr} (ht : t ∈ tokUpTo f B) : t.tokenWellFormed = true := by
  induction f generalizing B with
  | zero => cases ht
  | succ f ih =>
    cases B with
    | nil => cases ht
    | cons v rest =>
      have hcount := leadCount_le_room v 254 rest
      rcases List.mem_cons.mp ht with rfl | ht
      · exact tokenFor_wellFormed v (by omega)
      · exact ih ht

/-- Settles O7: each token stands for a count of at most 255, so it is a clean literal or a run of 2 or more. -/
theorem canonicalStreamsWellFormed : Obligations.CanonicalStreamsWellFormed := fun _ _ => tokUpTo_wellFormed

/-! ### Equal bytes -/

theorem tok_replicate_succ (n : Nat) (v : Byte) :
    tok (List.replicate (n + 1) v) = tokenFor v (min 254 n + 1) :: tok (List.replicate (n - min 254 n) v) := by
  rw [List.replicate_succ, tok_cons, leadCount_replicate, List.drop_replicate]

/-- At most 255 equal bytes are one token. -/
theorem tok_replicate_of_le {n : Nat} (hpos : 0 < n) (h : n ≤ 255) (v : Byte) :
    tok (List.replicate n v) = [tokenFor v n] := by
  obtain ⟨n, rfl⟩ := Nat.exists_eq_add_one.mpr hpos
  rw [tok_replicate_succ, Nat.min_eq_right (by omega), Nat.sub_self]; rfl

/-- The counter saturates at 255 (42_arithmetic R111), and what remains starts a token of its own. -/
theorem tok_replicate_add_maxRun (n : Nat) (v : Byte) :
    tok (List.replicate (n + 255) v) = .run 255#8 (valueBits v) :: tok (List.replicate n v) := by
  rw [show n + 255 = n + 254 + 1 from rfl, tok_replicate_succ, Nat.min_eq_left (by omega), Nat.add_sub_cancel]; rfl

theorem tok_replicate_mul_add (q r : Nat) (v : Byte) :
    tok (List.replicate (255 * q + r) v) =
      List.replicate q (.run 255#8 (valueBits v)) ++ tok (List.replicate r v) := by
  induction q with
  | zero => simp
  | succ q ih =>
    rw [show 255 * (q + 1) + r = 255 * q + r + 255 by omega, tok_replicate_add_maxRun, ih]; rfl

/-- Settles O20: the full runs first, then the remainder, which is nothing, a literal or one shorter run. -/
theorem longRunsAreCut : Obligations.LongRunsAreCut := by
  intro n v
  have hlt : n % 255 < 255 := Nat.mod_lt _ (by omega)
  rw [← valueBits_eq_setWidth]
  conv_lhs => rw [← Nat.div_add_mod n 255, tok_replicate_mul_add]
  congr 1
  split
  · next h0 => rw [h0]; rfl
  · next h0 =>
    rw [tok_replicate_of_le (by omega) (by omega)]
    split
    · next h1 => rw [h1, tokenFor_one]; rfl
    · next h1 => rw [tokenFor_of_one_lt v (by omega)]

/-! ### The misparsed pair -/

/-- A clean byte before at most 255 equal other bytes is a literal and a run. -/
theorem tok_cons_replicate {l w : Byte} {c : Nat} (hl : topBit l = false) (hne : l ≠ w) (hpos : 1 < c) (hc : c ≤ 255) :
    tok (l :: List.replicate c w) = [.lit l, .run (BitVec.ofNat 8 c) (valueBits w)] := by
  have hcount : leadCount l 254 (List.replicate c w) = 0 := by
    obtain ⟨n, rfl⟩ := Nat.exists_eq_add_one.mpr (Nat.zero_lt_of_lt hpos)
    exact leadCount_cons_of_ne hne.symm _ _
  rw [tok_cons, hcount, List.drop_zero, tok_replicate_of_le (by omega) hc, tokenFor_one, tokenFor_of_one_lt w hpos,
    andMask_of_clean l hl]

/-- A flagged second byte is the value of a run, whatever the encoder meant by it (30_encoding R60). -/
theorem expand_of_flagged (b : Byte) {n : Byte} (h : topBit n = true) (rest : List Byte) :
    expand (b :: n :: rest) = List.replicate b.toNat (andMask n) ++ expand rest := by
  rw [expand, if_pos h]

theorem topBit_ofNat_of_le {c : Nat} (h : 128 ≤ c) (hc : c ≤ 255) : topBit (BitVec.ofNat 8 c) = true :=
  (topBit_eq_true_iff _).mpr (by rwa [toNat_ofNat_of_le_maxRun hc])

theorem andMask_ofNat_of_le {c : Nat} (h : 128 ≤ c) (hc : c ≤ 255) :
    andMask (BitVec.ofNat 8 c) = BitVec.ofNat 8 (c - 128) := by
  rw [andMask_of_flagged (topBit_ofNat_of_le h hc), BitVec.ofNat_sub_ofNat_of_le c 128 (by omega) h]

/-- Settles O27: the count byte, being flagged, is taken for a value; the expansion then ends in a flagged byte, and the
data has none. -/
theorem longRunAfterLiteralIsMisparsed : Obligations.LongRunAfterLiteralIsMisparsed := by
  intro l w c hl hw hne hc hc'
  have hstream : asm (tok (l :: List.replicate c w)) = [l, BitVec.ofNat 8 c, orFlag w] := by
    rw [tok_cons_replicate ((topBit_eq_false_iff l).mpr hl) hne (by omega) hc']
    simp [asm, tokenBytes, orFlag_andMask]
  have hexpand : expand [l, BitVec.ofNat 8 c, orFlag w] =
      List.replicate l.toNat (BitVec.ofNat 8 (c - 128)) ++ [orFlag w] := by
    rw [expand_of_flagged l (topBit_ofNat_of_le hc hc'), andMask_ofNat_of_le hc hc']; rfl
  refine ⟨hstream, hexpand, fun hdata => ?_⟩
  rw [hstream, hexpand] at hdata
  have hmem : orFlag w ∈ l :: List.replicate c w := hdata ▸ List.mem_concat_self
  have hle : (orFlag w).toNat ≤ 127 := by
    rcases List.mem_cons.mp hmem with h | h
    · rw [h]; exact hl
    · rw [List.eq_of_mem_replicate h]; exact hw
  have hclean := (topBit_eq_false_iff _).mpr hle
  rw [topBit_orFlag] at hclean
  cases hclean

end Sys2Proof
end

section
/-! The recursion of `Tok` as the spec words it: the largest count of equal leading bytes (40_encoder R73, R78), and the
length of the stream it gives (40_encoder R79). -/

namespace Sys2Proof

/-! ### The count of equal leading bytes -/

theorem take_leadCount (v : Byte) (room : Nat) (B : List Byte) :
    B.take (leadCount v room B) = List.replicate (leadCount v room B) v := by
  induction room generalizing B with
  | zero => rfl
  | succ room ih =>
    cases B with
    | nil => rfl
    | cons b B =>
      rw [leadCount]
      split
      · next h => rw [List.take_succ_cons, ih, h, List.replicate_succ]
      · rfl

theorem leadCount_le_length (v : Byte) (room : Nat) (B : List Byte) : leadCount v room B ≤ B.length := by
  have h := congrArg List.length (take_leadCount v room B)
  rw [List.length_take, List.length_replicate] at h
  exact min_eq_left_iff.mp h

/-- The count is the largest: no more leading bytes within the bound equal `v`. -/
theorem le_leadCount {v : Byte} {room j : Nat} {B : List Byte} (hroom : j ≤ room)
    (htake : B.take j = List.replicate j v) : j ≤ leadCount v room B := by
  induction room generalizing j B with
  | zero => exact hroom
  | succ room ih =>
    match j, B with
    | 0, _ => exact Nat.zero_le _
    | j + 1, [] => cases htake
    | j + 1, b :: B =>
      rw [List.take_succ_cons, List.replicate_succ] at htake
      obtain ⟨rfl, hrest⟩ := List.cons.inj htake
      rw [leadCount, if_pos rfl]
      exact Nat.succ_le_succ (ih (Nat.le_of_succ_le_succ hroom) hrest)

/-- Settles O17: one step of `Tok` takes the byte and the count of those equal to it that follow. -/
theorem tokTakesLargestCount : Obligations.TokTakesLargestCount := by
  refine ⟨rfl, fun v B => ⟨leadCount v 254 B + 1, ?_⟩⟩
  have hroom := leadCount_le_room v 254 B
  have hlength := leadCount_le_length v 254 B
  refine ⟨by omega, by omega, Nat.succ_le_succ hlength, ?_, fun j hlt hj _ htake => ?_, ?_⟩
  · rw [List.take_succ_cons, take_leadCount, List.replicate_succ]
  · obtain ⟨j, rfl⟩ := Nat.exists_eq_add_one.mpr (Nat.zero_lt_of_lt hlt)
    rw [List.take_succ_cons, List.replicate_succ] at htake
    have := le_leadCount (Nat.le_of_succ_le_succ hj) (List.cons.inj htake).2
    omega
  · rw [tok_cons, tokenFor, valueBits_eq_setWidth]; rfl

/-! ### The bytes of its tokens -/

theorem tokenBytes_tokenFor_of_one_lt (v : Byte) {k : Nat} (h : 1 < k) :
    tokenBytes (tokenFor v k) = [BitVec.ofNat 8 k, orFlag v] := by
  rw [tokenFor_of_one_lt v h, tokenBytes, valueByte_valueBits, orFlag_andMask]

theorem tokenBytes_tokenFor_of_not_one_lt (v : Byte) {k : Nat} (h : ¬ 1 < k) :
    tokenBytes (tokenFor v k) = [andMask v] := by
  rw [tokenFor, if_neg h, tokenBytes]

/-- A token is no longer than the bytes it stands for (40_encoder R79). -/
theorem tokenBytes_tokenFor_length_le (v : Byte) {k : Nat} (h : 1 ≤ k) : (tokenBytes (tokenFor v k)).length ≤ k := by
  by_cases hk : 1 < k
  · rw [tokenBytes_tokenFor_of_one_lt v hk]; exact hk
  · rw [tokenBytes_tokenFor_of_not_one_lt v hk]; exact h

theorem asm_tokUpTo_length_le (f : Nat) (B : List Byte) : (asm (tokUpTo f B)).length ≤ B.length := by
  induction f generalizing B with
  | zero => exact Nat.zero_le _
  | succ f ih =>
    cases B with
    | nil => exact Nat.zero_le _
    | cons v rest =>
      have htoken := tokenBytes_tokenFor_length_le v (Nat.le_add_left 1 (leadCount v 254 rest))
      have hrest := ih (rest.drop (leadCount v 254 rest))
      have hcount := leadCount_le_length v 254 rest
      rw [List.length_drop] at hrest
      rw [tokUpTo, asm, List.length_append, List.length_cons]
      omega

/-- The stream is no longer than the raw bytes (42_arithmetic R115). -/
theorem asm_tok_length_le (B : List Byte) : (asm (tok B)).length ≤ B.length := asm_tokUpTo_length_le _ B

end Sys2Proof
end

section
/-! `ENCODE` (40_encoder R70 to R80): what one encoder step stores, the loop in place, and the whole command. -/

namespace Sys2Proof.Machine

/-! ### Bytes stored one after the other -/

theorem Memory.setList_append (m : Memory) (i : Nat) (xs ys : List Byte) :
    m.setList i (xs ++ ys) = (m.setList i xs).setList (i + xs.length) ys := by
  induction xs generalizing m i with
  | nil => rfl
  | cons x xs ih =>
    rw [List.cons_append, setList, ih, List.length_cons, Nat.add_assoc, Nat.add_comm 1]; rfl

theorem Memory.get_setList_of_le {m : Memory} (h : m.wf) {i a : Nat} {bs : List Byte} (hi : i + bs.length ≤ m.size)
    (ha : i + bs.length ≤ a) : (m.setList i bs).get a = m.get a := by
  rw [get_setList h hi, if_pos (by omega), List.getD_eq_default _ _ (by omega)]

theorem Memory.slice_setList_zero {m : Memory} (h : m.wf) {bs : List Byte} (hi : bs.length ≤ m.size) :
    (m.setList 0 bs).slice 0 bs.length = bs := by
  refine List.ext_getElem (by simp) fun j _ hj => ?_
  rw [slice_getElem, get_setList h (by omega), if_pos (Nat.zero_le _), Nat.zero_add, Nat.sub_zero,
    List.getD_eq_getElem _ _ hj]

theorem Memory.slice_drop (m : Memory) (a b k : Nat) : (m.slice a b).drop k = m.slice (a + k) b := by
  rw [slice, slice, ← List.map_drop, List.drop_range', Nat.sub_add_eq, Nat.mul_one]

/-! ### The scan is the count of `Tok` -/

theorem scanMore_eq_leadCount (m : Memory) (len : Nat) (v : Byte) (room i : Nat) :
    scanMore m len v room i = leadCount v room (m.slice i len) := by
  induction room generalizing i with
  | zero => rfl
  | succ room ih =>
    rw [scanMore]
    by_cases hi : i < len
    · rw [m.slice_cons hi, leadCount, ih]
      simp [hi]
    · have hnil : m.slice i len = [] := by rw [← List.length_eq_zero_iff, m.slice_length]; omega
      rw [hnil, leadCount, if_neg fun h => hi h.1]

/-- The token an encoder step emits (40_encoder R73 to R75). -/
def scanToken (s : State) : Instr := tokenFor (s.buf.get s.rd) (scanCount s.buf s.len s.rd)

/-- `Tok` of the bytes from `rd` on: the step's token first, then `Tok` of the bytes behind those it has counted. -/
theorem tok_slice {s : State} (h : s.rd < s.len) :
    tok (s.buf.slice s.rd s.len) =
      scanToken s :: tok (s.buf.slice (s.rd + scanCount s.buf s.len s.rd) s.len) := by
  rw [s.buf.slice_cons h, tok_cons, s.buf.slice_drop, scanToken, scanCount_eq, scanMore_eq_leadCount,
    Nat.add_right_comm, Nat.add_assoc s.rd]

/-! ### One encoder step -/

/-- The state with bytes stored from `wr` on, and `wr` behind them (40_encoder R74, R75). -/
def State.store (s : State) (bs : List Byte) : State :=
  { s with buf := s.buf.setList s.wr bs, wr := s.wr + bs.length }

@[simp] theorem State.store_nil (s : State) : s.store [] = s := rfl

theorem State.store_append (s : State) (xs ys : List Byte) : s.store (xs ++ ys) = (s.store xs).store ys := by
  simp only [store, Memory.setList_append, List.length_append, Nat.add_assoc]

/-- The scan loaded, its token stored, `rd` advanced by the count (40_encoder R73 to R76). -/
def afterToken (s : State) : State :=
  { (loadCount s).store (tokenBytes (scanToken s)) with rd := s.rd + scanCount s.buf s.len s.rd }

theorem moreThanOne_loadCount (s : State) : moreThanOne (loadCount s).cnt = true ↔ 1 < scanCount s.buf s.len s.rd := by
  rw [moreThanOne, decide_eq_true_iff, loadCount_cnt, scanCount_toNat]

theorem emitted_loadCount (s : State) : emitted (loadCount s) = (loadCount s).store (tokenBytes (scanToken s)) := by
  unfold emitted scanToken
  split
  · next h => rw [tokenBytes_tokenFor_of_one_lt _ ((moreThanOne_loadCount s).mp h)]; rfl
  · next h => rw [tokenBytes_tokenFor_of_not_one_lt _ ((moreThanOne_loadCount s).not.mp h)]; rfl

/-- The token ends no later than the bytes it stands for (40_encoder R79). -/
theorem wr_add_scanToken_length_le {s : State} (hwr : s.wr ≤ s.rd) :
    s.wr + (tokenBytes (scanToken s)).length ≤ s.rd + scanCount s.buf s.len s.rd :=
  Nat.add_le_add hwr (tokenBytes_tokenFor_length_le _ (scanCount_pos ..))

section
variable {s : State} (hwr : s.wr ≤ s.rd) (hrd : s.rd < s.len) (hlen : s.len ≤ s.cap)
include hwr hrd hlen

/-- In place, the token falls inside the bytes already read, so into `BUF` (40_encoder R79). -/
theorem wr_add_scanToken_length_le_cap : s.wr + (tokenBytes (scanToken s)).length ≤ s.cap :=
  (wr_add_scanToken_length_le hwr).trans ((scanCount_le_len s.buf hrd).trans hlen)

theorem coreStep_eq_afterToken (hp : s.phase = .enc) : coreStep s = .next (afterToken s) := by
  have hcount := scanCount_le_len s.buf hrd
  have hroom : if moreThanOne (loadCount s).cnt then s.wr + 2 ≤ s.cap else s.wr + 1 ≤ s.cap := by
    split
    · next h => have := (moreThanOne_loadCount s).mp h; omega
    · omega
  rw [coreStep_of_enc hp, if_pos hrd, encoderStep_eq hlen hroom, emitted_loadCount, afterToken]

theorem afterToken_wf (hbuf : s.buf.wf) : (afterToken s).buf.wf :=
  Memory.wf_setList hbuf (wr_add_scanToken_length_le_cap hwr hrd hlen)

end

/-- A count above 1 is emitted as a run token of two bytes (40_encoder R74). -/
theorem afterToken_of_one_lt {s : State} (hbuf : s.buf.wf) (hwr : s.wr < s.cap) (hk : 1 < scanCount s.buf s.len s.rd) :
    (afterToken s).wr = s.wr + 2 ∧ ∀ i, (afterToken s).buf.get i =
      if i = s.wr then BitVec.ofNat 8 (scanCount s.buf s.len s.rd)
      else if i = s.wr + 1 then orFlag (s.buf.get s.rd) else s.buf.get i := by
  rw [afterToken, scanToken, tokenBytes_tokenFor_of_one_lt _ hk]
  refine ⟨rfl, fun i => ?_⟩
  rw [State.store, loadCount_buf, loadCount_wr, Memory.setList, Memory.setList, Memory.setList,
    Memory.get_set (Memory.wf_set hbuf hwr _), Memory.get_set hbuf]
  split
  · rw [if_neg (by omega)]
  · rfl

/-- A count of 1 is emitted as a literal token of one byte (40_encoder R75). -/
theorem afterToken_of_not_one_lt {s : State} (hbuf : s.buf.wf) (hk : ¬ 1 < scanCount s.buf s.len s.rd) :
    (afterToken s).wr = s.wr + 1 ∧ ∀ i, (afterToken s).buf.get i =
      if i = s.wr then andMask (s.buf.get s.rd) else s.buf.get i := by
  rw [afterToken, scanToken, tokenBytes_tokenFor_of_not_one_lt _ hk]
  exact ⟨rfl, fun i => Memory.get_set hbuf ..⟩

/-- Settles O12: the step leads to `afterToken`, and the scan's count is the largest. -/
theorem encoderStepEmitsToken : Obligations.EncoderStepEmitsToken := by
  intro s hp hbuf hwr hrd hlen
  have hcount := scanCount_le_len s.buf hrd
  refine ⟨afterToken s, scanCount s.buf s.len s.rd, coreStep_eq_afterToken hwr hrd hlen hp, scanCount_pos ..,
    scanCount_le_maxRun .., hcount, scanCount_equal _ _ _, ?_, rfl, scanCount_toNat .., rfl, ?_,
    afterToken_wf hwr hrd hlen hbuf, Memory.setList_size .., rfl⟩
  · exact (scanCount_maximal s.buf s.len s.rd).imp_right (Or.imp_left (Nat.le_antisymm hcount))
  · split
    · next hk => exact afterToken_of_one_lt hbuf (by omega) hk
    · next hk => exact afterToken_of_not_one_lt hbuf hk

/-! ### The loop in place -/

/-- A token does not touch the bytes still to be read (40_encoder R79). -/
theorem afterToken_slice {s : State} (hbuf : s.buf.wf) (hwr : s.wr ≤ s.rd) (hrd : s.rd < s.len) (hlen : s.len ≤ s.cap) :
    (afterToken s).buf.slice (afterToken s).rd s.len = s.buf.slice (s.rd + scanCount s.buf s.len s.rd) s.len :=
  Memory.slice_congr fun _ hi _ => Memory.get_setList_of_le hbuf (wr_add_scanToken_length_le_cap hwr hrd hlen)
    ((wr_add_scanToken_length_le hwr).trans hi)

/-- The encoder loop from any of its states: it stores `Asm(Tok(BUF[rd..len)))` from `wr` on and completes
(40_encoder R76 to R79). The working registers are forgotten on completion, so those of `s` stand for them. -/
theorem runToEnd_enc {k : Nat} {s : State} (hp : s.phase = .enc) (hbuf : s.buf.wf) (hwr : s.wr ≤ s.rd)
    (hrd : s.rd ≤ s.len) (hlen : s.len ≤ s.cap) (hk : s.len - s.rd < k) :
    runToEnd k s = .next (finishCommand (s.store (asm (tok (s.buf.slice s.rd s.len))))) := by
  induction k generalizing s with
  | zero => omega
  | succ k ih =>
    have hbusy : s.phase ≠ .idle := by simp [hp]
    rw [runToEnd_busy hbusy]
    by_cases hlt : s.rd < s.len
    · have hcount := scanCount_le_len s.buf hlt
      have hpos := scanCount_pos s.buf s.len s.rd
      have hcap : (afterToken s).cap = s.cap := Memory.setList_size ..
      have hrest := ih (s := afterToken s) hp (afterToken_wf hwr hlt hlen hbuf) (wr_add_scanToken_length_le hwr)
        hcount (hcap ▸ hlen) (show s.len - (s.rd + scanCount s.buf s.len s.rd) < k by omega)
      rw [coreStep_eq_afterToken hwr hlt hlen hp, andThen_next, hrest, tok_slice hlt, asm, State.store_append,
        ← afterToken_slice hbuf hwr hlt hlen]
      rfl
    · have hend : s.rd = s.len := by omega
      rw [coreStep_of_enc hp, if_neg hlt, andThen_next, runToEnd_idle rfl, hend, Memory.slice_self, tok_nil, asm,
        State.store_nil]

/-! ### Whole commands -/

theorem beginEncode_zero (s : State) :
    beginEncode 0 s = finishCommand { acceptCommand 0 s with phase := .enc, wr := 0 } := rfl

theorem beginDecode_zero (s : State) : beginDecode 0 s = finishCommand { acceptCommand 0 s with wr := 0 } := rfl

/-- `ENCODE n`, whole: accepted, the stream stored from index 0 on, completed (40_encoder R70 to R78). -/
theorem exec_encode_eq {s : State} {n : Nat} (hp : s.phase = .idle) (hn : n ≤ s.cap) (hbuf : s.buf.wf) :
    exec (.encode n) s =
      .next (finishCommand ({ acceptCommand n s with wr := 0 }.store (asm (tok (s.buf.slice 0 n))))) := by
  rw [exec_encode_idle hp hn]
  rcases Nat.eq_zero_or_pos n with rfl | hpos
  · rw [beginEncode_zero, runToEnd_idle rfl, Memory.slice_self, tok_nil, asm, State.store_nil]; rfl
  · rw [beginEncode_of_pos hpos]
    exact runToEnd_enc rfl hbuf le_rfl (Nat.zero_le n) hn (Nat.lt_succ_self n)

theorem completed_finishCommand {s : State} {n : Nat} (hwr : s.wr = n) (herr : s.err = false) (hcause : s.cause = 0) :
    completed (finishCommand s) n := ⟨hwr, herr, hcause, rfl, rfl, rfl⟩

/-- Settles O18: the command is `exec_encode_eq`, and the stream it stores is no longer than the raw bytes. -/
theorem encodeIsTok : Obligations.EncodeIsTok := by
  intro s n hp hn hbuf
  have hfits : (asm (tok (s.buf.slice 0 n))).length ≤ s.buf.size :=
    (asm_tok_length_le _).trans (by rwa [Memory.slice_length])
  have hroom : 0 + (asm (tok (s.buf.slice 0 n))).length ≤ s.buf.size := by rwa [Nat.zero_add]
  refine ⟨_, exec_encode_eq hp hn hbuf, completed_finishCommand (Nat.zero_add _) rfl rfl,
    ⟨Memory.slice_setList_zero hbuf hfits, fun i hi => ?_, Memory.wf_setList hbuf hroom⟩,
    ⟨Memory.setList_size .., rfl, rfl, rfl, rfl, rfl, rfl⟩, rfl⟩
  exact Memory.get_setList_of_le hbuf hroom (by rwa [Nat.zero_add])

/-- Settles O35: an empty command completes at its acceptance, with `wr` at 0. -/
theorem emptyCommandsComplete : Obligations.EmptyCommandsComplete := by
  rintro s i (rfl | rfl) hp
  · refine ⟨beginEncode 0 s, ?_, completed_finishCommand rfl rfl rfl, rfl, rfl, ⟨rfl, rfl, rfl, rfl, rfl, rfl, rfl⟩⟩
    rw [exec_encode_idle hp (Nat.zero_le _), runToEnd_idle rfl]
  · refine ⟨beginDecode 0 s, ?_, completed_finishCommand rfl rfl rfl, rfl, rfl, ⟨rfl, rfl, rfl, rfl, rfl, rfl, rfl⟩⟩
    rw [exec_decode_idle hp (Nat.zero_le _), runToEnd_idle rfl]

end Sys2Proof.Machine
end

section
/-! The decoder's tokens (41_decoder R95 to R102): the expansion they write, the token at a place of a stream, what
performing it does, and the algorithmic steps of a running `DECODE`. -/

namespace Sys2Proof

/-! ### The expansion is what the tokens write -/

/-- Before a byte that is not flagged the current one is written as it is (41_decoder R97). -/
theorem expand_of_not_flagged (b : Byte) {n : Byte} (h : topBit n = false) (rest : List Byte) :
    expand (b :: n :: rest) = b :: expand (n :: rest) := by
  rw [expand, if_neg (by simp [h])]

/-- Settles O22, along the recursion that `Exp` and the parser share. -/
theorem expIsTokensPerformed : Obligations.ExpIsTokensPerformed := by
  intro S
  induction S using expand.induct with
  | case1 => rfl
  | case2 b => rfl
  | case3 b n rest hn ih =>
    rw [expand_of_flagged b hn, parseStream, if_pos hn, List.flatMap_cons, ← ih, tokenOut, valueByte_valueBits]
  | case4 b n rest hn ih =>
    rw [expand_of_not_flagged b (by simpa using hn), parseStream, if_neg hn, List.flatMap_cons, ← ih]; rfl

namespace Machine

/-! ### The token at a place of a stream -/

theorem isRun_iff (m : Memory) (len rd : Nat) :
    isRun m len rd = true ↔ rd + 1 < len ∧ topBit (m.get (rd + 1)) = true := by
  rw [isRun, Bool.and_eq_true, decide_eq_true_iff]

/-- The token the parser reads at `rd` (30_encoding R55, R57). -/
def streamToken (m : Memory) (len rd : Nat) : Instr :=
  if isRun m len rd then .run (m.get rd) (valueBits (m.get (rd + 1))) else .lit (m.get rd)

theorem streamToken_of_run {m : Memory} {len rd : Nat} (h : rd + 1 < len ∧ topBit (m.get (rd + 1)) = true) :
    streamToken m len rd = .run (m.get rd) (valueBits (m.get (rd + 1))) :=
  if_pos ((isRun_iff m len rd).mpr h)

theorem streamToken_of_not_run {m : Memory} {len rd : Nat} (h : ¬ (rd + 1 < len ∧ topBit (m.get (rd + 1)) = true)) :
    streamToken m len rd = .lit (m.get rd) :=
  if_neg ((isRun_iff m len rd).not.mpr h)

theorem streamToken_isToken (m : Memory) (len rd : Nat) : (streamToken m len rd).isToken = true := by
  unfold streamToken; split <;> rfl

/-- The parser's answer at `rd` is that token. -/
theorem eq_streamToken {m : Memory} {len rd : Nat} {i : Instr} {rest : List Byte}
    (h : decodeToken (tokenWindow m len rd) = .ok (i, rest)) : i = streamToken m len rd := by
  rcases tokenWindow_cases m len rd with ⟨hlt, hw⟩ | ⟨hge, hw⟩ <;> rw [hw] at h
  · by_cases hn : topBit (m.get (rd + 1)) = true
    · rw [decodeToken_of_flagged _ hn] at h; cases h
      exact (streamToken_of_run ⟨hlt, hn⟩).symm
    · rw [decodeToken_cons_cons, if_neg hn] at h; cases h
      exact (streamToken_of_not_run fun hrun => hn hrun.2).symm
  · cases h
    exact (streamToken_of_not_run fun hrun => by omega).symm

theorem tokenBytes_length_pos {t : Instr} (ht : t.isToken = true) : 1 ≤ (tokenBytes t).length := by
  cases t with
  | encode n => cases ht
  | decode n => cases ht
  | run c v => exact Nat.le_succ 1
  | lit b => exact le_rfl

theorem Memory.slice_of_le (m : Memory) {a b : Nat} (h : b ≤ a) : m.slice a b = [] := by
  rw [← List.length_eq_zero_iff, m.slice_length, Nat.sub_eq_zero_of_le h]

/-- `Exp` of the bytes from `rd` on: what the token at `rd` writes, then `Exp` of the bytes behind it. -/
theorem expand_slice (m : Memory) {len rd : Nat} (h : rd < len) :
    expand (m.slice rd len) = tokenOut (streamToken m len rd) ++
      expand (m.slice (rd + (tokenBytes (streamToken m len rd)).length) len) := by
  rw [m.slice_cons h]
  by_cases hnext : rd + 1 < len
  · rw [m.slice_cons hnext]
    by_cases hn : topBit (m.get (rd + 1)) = true
    · rw [expand_of_flagged _ hn, streamToken_of_run ⟨hnext, hn⟩, tokenOut, valueByte_valueBits]; rfl
    · rw [expand_of_not_flagged _ (by simpa using hn), streamToken_of_not_run fun hrun => hn hrun.2,
        ← m.slice_cons hnext]
      rfl
  · have hend : len ≤ rd + 1 := Nat.le_of_not_lt hnext
    rw [streamToken_of_not_run fun hrun => hnext hrun.1, m.slice_of_le hend]
    exact congrArg (m.get rd :: expand ·) (m.slice_of_le hend).symm

/-! ### A token performed -/

/-- The registers a token loads (41_decoder R96, R97). -/
def loadToken (t : Instr) (s : State) : State :=
  match t with
  | .encode _ => s
  | .decode _ => s
  | .run c v => { s with cur := c, cnt := c, val := valueByte v }
  | .lit b => { s with cur := b }

/-- The registers loaded, the token's bytes stored from `wr` on, `rd` behind it (41_decoder R96, R97). -/
def performed (t : Instr) (s : State) : State :=
  { (loadToken t s).store (tokenOut t) with rd := s.rd + (tokenBytes t).length }

@[simp] theorem performed_rd (t : Instr) (s : State) : (performed t s).rd = s.rd + (tokenBytes t).length := rfl
@[simp] theorem performed_wr (t : Instr) (s : State) : (performed t s).wr = s.wr + (tokenOut t).length := by
  cases t <;> rfl
@[simp] theorem performed_len (t : Instr) (s : State) : (performed t s).len = s.len := by cases t <;> rfl
@[simp] theorem performed_scr (t : Instr) (s : State) : (performed t s).scr = s.scr := by cases t <;> rfl
@[simp] theorem performed_phase (t : Instr) (s : State) : (performed t s).phase = s.phase := by cases t <;> rfl
@[simp] theorem performed_buf (t : Instr) (s : State) : (performed t s).buf = s.buf.setList s.wr (tokenOut t) := by
  cases t <;> rfl
@[simp] theorem performed_cap (t : Instr) (s : State) : (performed t s).cap = s.cap := by
  rw [State.cap, performed_buf, Memory.setList_size, State.cap]

/-- A run is its value, stored count times (41_decoder R96). -/
theorem Memory.fillRun_eq_setList (m : Memory) (i : Nat) (b : Byte) (n : Nat) :
    m.fillRun i b n = m.setList i (List.replicate n b) := by
  induction n generalizing m i with
  | zero => rfl
  | succ n ih => exact ih (m.set i b) (i + 1)

/-- A token whose bytes fit `BUF` is performed (41_decoder R96, R97). -/
theorem exec_token_of_room {t : Instr} {s : State} (ht : t.isToken = true) (h : s.wr + (tokenOut t).length ≤ s.cap) :
    exec t s = .next (performed t s) := by
  cases t with
  | encode n => cases ht
  | decode n => cases ht
  | run c v =>
    rw [tokenOut, List.length_replicate] at h
    refine (execRun_of_room h v).trans ?_
    rw [Memory.fillRun_eq_setList, performed, State.store, tokenOut, List.length_replicate]; rfl
  | lit b => exact execLit_of_room h b

/-- A token whose bytes do not fit `BUF` overruns (41_decoder R105). -/
theorem exec_token_of_overrun {t : Instr} {s : State} (ht : t.isToken = true)
    (h : s.cap < s.wr + (tokenOut t).length) : exec t s = .fault .destOverrun := by
  cases t with
  | encode n => cases ht
  | decode n => cases ht
  | run c v => rw [tokenOut, List.length_replicate] at h; exact execRun_of_overrun h v
  | lit b => exact execLit_of_overrun h b

/-- Settles O9: the state is the one `execRun` answers where there is room. -/
theorem runPerformed : Obligations.RunPerformed := fun _ v _ hbuf hroom =>
  ⟨_, execRun_of_room hroom v, rfl, rfl, rfl, rfl, Memory.get_fillRun hbuf hroom _, Memory.wf_fillRun hbuf hroom _,
    Memory.fillRun_size .., rfl⟩

/-- Settles O10: the state is the one `execLit` answers where there is room. -/
theorem litPerformed : Obligations.LitPerformed := fun b _ hbuf hroom =>
  ⟨_, execLit_of_room hroom b, rfl, rfl, fun _ => Memory.get_set hbuf .., Memory.wf_set hbuf hroom b, rfl, rfl⟩

/-! ### The algorithmic steps of a running `DECODE` -/

/-- The core's step before the end of the stream is `exec` of the token at `rd` (41_decoder R95). -/
theorem coreStep_eq_exec {s : State} {m : Memory} (hp : s.phase = .dec) (hm : s.scr = some m) (hs : s.len ≤ m.size)
    (hrd : s.rd < s.len) : coreStep s = exec (streamToken m s.len s.rd) s := by
  rw [coreStep_of_dec hp, if_pos hrd, decoderStep_eq hm hs, streamToken]
  split <;> rfl

/-- Settles O11: the step is the token's, and the two statements about the tokens say what that does. -/
theorem decoderStepPerformsToken : Obligations.DecoderStepPerformsToken := by
  intro s m hp hm hsize hrd hbuf
  rw [coreStep_eq_exec hp hm hsize.ge hrd]
  split
  · next hrun =>
    rw [← topBit_eq_true_iff] at hrun
    rw [streamToken_of_run hrun]
    split
    · next hover => exact execRun_of_overrun hover _
    · next hroom =>
      have h := runPerformed (m.get s.rd) (valueBits (m.get (s.rd + 1))) s hbuf (Nat.le_of_not_lt hroom)
      have hvalue : (valueBits (m.get (s.rd + 1))).setWidth 8 = m.get (s.rd + 1) &&& 0x7F#8 := valueByte_valueBits _
      rwa [hvalue] at h
  · next hlit =>
    rw [← topBit_eq_true_iff] at hlit
    rw [streamToken_of_not_run hlit]
    split
    · next hover => exact execLit_of_overrun hover _
    · next hroom => exact litPerformed (m.get s.rd) s hbuf (Nat.le_of_not_lt hroom)

/-- Settles O13: the step is `snapshotStep`, and the snapshot reads as `BUF` below `len`. -/
theorem snapshotCopiesStream : Obligations.SnapshotCopiesStream := fun s hp hbuf =>
  ⟨snapshotStep s, s.buf.snapshot s.len, coreStep_of_decCopy hp, rfl, rfl, Memory.wf_snapshot hbuf _,
    fun i hi => by rw [Memory.get_snapshot hbuf, if_pos hi], rfl, rfl, rfl⟩

/-- Settles O14: with `rd` at `len` the step of either command is its finish line. -/
theorem commandCompletes : Obligations.CommandCompletes := by
  rintro s hrd (hp | hp)
  · refine ⟨finishCommand s, ?_, rfl, rfl, rfl, rfl, rfl, rfl, rfl, fun hdec => ?_, fun _ => rfl,
      ⟨rfl, rfl, rfl, rfl, rfl, rfl, rfl⟩⟩
    · rw [coreStep_of_enc hp, if_neg hrd.not_lt]
    · rw [hp] at hdec; cases hdec
  · refine ⟨finishCommand (releaseScratch s), ?_, rfl, rfl, rfl, rfl, rfl, rfl, rfl, fun _ => rfl, fun henc => ?_,
      ⟨rfl, rfl, rfl, rfl, rfl, rfl, rfl⟩⟩
    · rw [coreStep_of_dec hp, if_neg hrd.not_lt]
    · rw [hp] at henc; cases henc

/-- With no `START` and no move pending the step is the core's turn (log 6). -/
theorem step_of_no_script {s : State} (hs : s.start = false) (hl : s.script = []) : step s = coreStep s := by
  simp [step, hs, moveStep, hl]

/-- Settles O42: at either kind of turn the core performs the token at `rd`, which is the one the parser reads. -/
theorem stepRunsToken : Obligations.StepRunsToken := by
  intro s m i rest hs hp hm hsize hrd hparse
  rw [eq_streamToken hparse]
  refine ⟨fun hl => ?_, fun moves hl => ?_⟩
  · rw [step_of_no_script hs hl, coreStep_eq_exec hp hm hsize hrd]
  · rw [step_of_script hs hl]
    exact coreStep_eq_exec (s := { s with script := moves }) hp hm hsize hrd

end Machine

end Sys2Proof
end

section
/-! `DECODE` (41_decoder R90 to R106): the loop over the tokens of the stream, and the whole command. -/

namespace Sys2Proof.Machine

/-! ### The loop -/

/-- How a `DECODE` with the bytes `out` still to write ends: they fit `BUF` from `wr` on and the command completes, or
it overruns (41_decoder R100, R105). -/
def decodeOutcome (out : List Byte) (s : State) : Host.Outcome State Fault Refusal :=
  if s.wr + out.length ≤ s.cap then .next (finishCommand (releaseScratch (s.store out))) else .fault .destOverrun

theorem decodeOutcome_of_room {out : List Byte} {s : State} (h : s.wr + out.length ≤ s.cap) :
    decodeOutcome out s = .next (finishCommand (releaseScratch (s.store out))) := if_pos h

theorem decodeOutcome_of_overrun {out : List Byte} {s : State} (h : s.cap < s.wr + out.length) :
    decodeOutcome out s = .fault .destOverrun := if_neg (Nat.not_le_of_lt h)

/-- The bytes of a token may be written before the rest: the registers it loads are forgotten on completion. -/
theorem decodeOutcome_performed (t : Instr) (s : State) (out : List Byte) :
    decodeOutcome out (performed t s) = decodeOutcome (tokenOut t ++ out) s := by
  have hend : finishCommand (releaseScratch ((performed t s).store out)) =
      finishCommand (releaseScratch (s.store (tokenOut t ++ out))) := by
    rw [State.store_append]; cases t <;> rfl
  rw [decodeOutcome, decodeOutcome, performed_wr, performed_cap, hend, List.length_append, Nat.add_assoc]

/-- The decoder loop from any of its states: it writes `Exp(SCR[rd..len))` from `wr` on and completes, or overruns
(41_decoder R98 to R105). -/
theorem runToEnd_dec {k : Nat} {s : State} {m : Memory} (hp : s.phase = .dec) (hm : s.scr = some m)
    (hs : s.len ≤ m.size) (hwr : s.wr ≤ s.cap) (hk : s.len - s.rd < k) :
    runToEnd k s = decodeOutcome (expand (m.slice s.rd s.len)) s := by
  induction k generalizing s with
  | zero => omega
  | succ k ih =>
    have hbusy : s.phase ≠ .idle := by simp [hp]
    rw [runToEnd_busy hbusy]
    by_cases hrd : s.rd < s.len
    · have htoken := streamToken_isToken m s.len s.rd
      rw [coreStep_eq_exec hp hm hs hrd, expand_slice m hrd]
      generalize streamToken m s.len s.rd = t at htoken ⊢
      have hpos := tokenBytes_length_pos htoken
      by_cases hroom : s.wr + (tokenOut t).length ≤ s.cap
      · have hrest := ih (s := performed t s) (by simpa using hp) (by simpa using hm) (by simpa using hs)
          (by simpa using hroom) (by rw [performed_len, performed_rd]; omega)
        rw [exec_token_of_room htoken hroom, andThen_next, hrest, decodeOutcome_performed, performed_len, performed_rd]
      · have hover : s.cap < s.wr + (tokenOut t).length := Nat.lt_of_not_le hroom
        rw [exec_token_of_overrun htoken hover, andThen_fault, decodeOutcome_of_overrun]
        rw [List.length_append]
        omega
    · rw [coreStep_of_dec hp, if_neg hrd, andThen_next, runToEnd_idle rfl, m.slice_of_le (Nat.le_of_not_lt hrd),
        expand, decodeOutcome_of_room (out := []) hwr, State.store_nil]

/-! ### The whole command -/

theorem Memory.slice_snapshot {m : Memory} (h : m.wf) (n : Nat) : (m.snapshot n).slice 0 n = m.slice 0 n :=
  slice_congr fun i _ hi => by rw [get_snapshot h, if_pos hi]

/-- Acceptance of a `DECODE` of at least one byte without scratch (41_decoder R92). -/
theorem beginDecode_of_no_scratch {n : Nat} {s : State} (hn : 0 < n) (hok : s.scratchOk = false) :
    beginDecode n s = raiseError causeAllocationFailure (acceptCommand n s) := by
  rw [beginDecode, if_neg hn.ne', hok, if_neg Bool.false_ne_true]

/-- `DECODE n` without scratch ends at its acceptance (41_decoder R92, 60_exceptions R146). -/
theorem exec_decode_of_no_scratch {s : State} {n : Nat} (hp : s.phase = .idle) (hn : n ≤ s.cap) (hpos : 0 < n)
    (hok : s.scratchOk = false) :
    exec (.decode n) s = .next (raiseError causeAllocationFailure (acceptCommand n s)) := by
  rw [exec_decode_idle hp hn, beginDecode_of_no_scratch hpos hok, runToEnd_idle rfl]

/-- `DECODE n` with scratch, whole: accepted, the snapshot taken, the expansion written from index 0 on
(41_decoder R90 to R102). -/
theorem exec_decode_of_scratch {s : State} {n : Nat} (hp : s.phase = .idle) (hn : n ≤ s.cap) (hbuf : s.buf.wf)
    (hpos : 0 < n) (hok : s.scratchOk = true) :
    exec (.decode n) s = decodeOutcome (expand (s.buf.slice 0 n)) { acceptCommand n s with wr := 0 } := by
  rw [exec_decode_idle hp hn, beginDecode_of_scratch hpos hok, runToEnd_busy (by simp), coreStep_of_decCopy rfl,
    andThen_next, runToEnd_dec (s := snapshotStep { acceptCommand n s with phase := .decCopy }) rfl rfl le_rfl
      (Nat.zero_le _) (Nat.lt_succ_self n), ← Memory.slice_snapshot hbuf]
  rfl

theorem prefixWritten_setList {s t : State} {out : List Byte} (hbuf : s.buf.wf) (hfits : out.length ≤ s.buf.size)
    (ht : t.buf = s.buf.setList 0 out) : prefixWritten s t out := by
  have hroom : 0 + out.length ≤ s.buf.size := by rwa [Nat.zero_add]
  rw [prefixWritten, ht]
  refine ⟨Memory.slice_setList_zero hbuf hfits, fun i hi => ?_, Memory.wf_setList hbuf hroom⟩
  exact Memory.get_setList_of_le hbuf hroom (by rwa [Nat.zero_add])

/-- Settles O21: an empty stream, no scratch, and the two ends of the loop are the four outcomes. -/
theorem decodeIsExp : Obligations.DecodeIsExp := by
  intro s n hp hn hbuf
  split
  · next hzero =>
    subst hzero
    obtain ⟨t, hexec, hdone, hsame, hscr, hframe⟩ := emptyCommandsComplete s (.decode 0) (.inr rfl) hp
    exact ⟨t, hexec, hdone, hsame, hframe, hscr⟩
  · next hne =>
    have hpos : 0 < n := Nat.pos_of_ne_zero hne
    split
    · next hok =>
      exact ⟨_, exec_decode_of_no_scratch hp hn hpos hok, rfl, rfl, rfl, rfl, rfl, rfl, rfl,
        ⟨rfl, rfl, rfl, rfl, rfl, rfl, rfl⟩, rfl⟩
    · next hok =>
      have hexec := exec_decode_of_scratch hp hn hbuf hpos (by simpa using hok)
      split
      · next hfits =>
        have hroom : 0 + (expand (s.buf.slice 0 n)).length ≤ s.cap := by rwa [Nat.zero_add]
        exact ⟨_, hexec.trans (decodeOutcome_of_room hroom), completed_finishCommand (Nat.zero_add _) rfl rfl,
          prefixWritten_setList hbuf hfits rfl, ⟨Memory.setList_size .., rfl, rfl, rfl, rfl, rfl, rfl⟩, rfl⟩
      · next hlong =>
        have hover : s.cap < 0 + (expand (s.buf.slice 0 n)).length := by omega
        exact hexec.trans (decodeOutcome_of_overrun hover)

end Sys2Proof.Machine
end

section
/-! A command shown one algorithmic step at a time (92 D1; log 5): the core's turns are the steps of the whole command. -/

namespace Sys2Proof.Machine

theorem andThen_congr {o : Host.Outcome State Fault Refusal} {f g : State → Host.Outcome State Fault Refusal}
    (h : ∀ t, o = .next t → f t = g t) : andThen o f = andThen o g := by
  cases o with
  | next t => exact h t rfl
  | fault r => rfl
  | refused r => rfl

/-! ### The core's turns, with nothing else pending -/

/-- No algorithmic step presents a `START` or makes a move of the script. -/
theorem coreStep_start_script {s t : State} (h : coreStep s = .next t) : t.start = s.start ∧ t.script = s.script := by
  obtain ⟨-, rfl⟩ | ⟨-, -, henc⟩ | ⟨-, -, rfl⟩ | ⟨-, rfl⟩ | ⟨-, -, hdec⟩ | ⟨-, -, rfl⟩ := coreStep_next h
  case inr.inl =>
    obtain ⟨-, -, rfl⟩ := encoderStep_next henc
    rw [emitted_loadCount]; exact ⟨rfl, rfl⟩
  case inr.inr.inr.inr.inl =>
    obtain ⟨m, -, -, ⟨-, -, hrun⟩ | ⟨-, hlit⟩⟩ := decoderStep_next hdec
    · obtain ⟨-, rfl⟩ := execRun_next hrun; exact ⟨rfl, rfl⟩
    · obtain ⟨-, rfl⟩ := execLit_next hlit; exact ⟨rfl, rfl⟩
  all_goals exact ⟨rfl, rfl⟩

/-- The host's run of `k` steps of the core, at the types of the model. -/
def coreRun (k : Nat) (s : State) : Host.Outcome State Fault Refusal := Host.Core.run Sys2Proof.core k s

theorem coreRun_succ (k : Nat) (s : State) : coreRun (k + 1) s = andThen (step s) (coreRun k) := core_run_succ k s

/-- With no `START` and no move pending, steps of the machine are algorithmic steps of the running command. -/
theorem coreRun_eq_runToEnd (k : Nat) {s : State} (hs : s.start = false) (hl : s.script = []) :
    coreRun k s = runToEnd k s := by
  induction k generalizing s with
  | zero => rfl
  | succ k ih =>
    rw [coreRun_succ, step_of_no_script hs hl]
    by_cases hp : s.phase = .idle
    · rw [coreStep_of_idle hp, andThen_next, runToEnd_idle hp, ih hs hl, runToEnd_idle hp]
    · rw [runToEnd_busy hp]
      refine andThen_congr fun t ht => ?_
      obtain ⟨hstart, hscript⟩ := coreStep_start_script ht
      exact ih (hstart.trans hs) (hscript.trans hl)

/-! ### The bound of an `ENCODE` is not too small -/

/-- An encoder step takes at least one byte, so steps beyond `len - rd` and the finish change nothing
(42_arithmetic R117). -/
theorem runToEnd_succ_of_enc {k : Nat} {s : State} (hp : s.phase = .enc) (hk : s.len - s.rd < k) :
    runToEnd (k + 1) s = runToEnd k s := by
  induction k generalizing s with
  | zero => omega
  | succ k ih =>
    have hbusy : s.phase ≠ .idle := by simp [hp]
    rw [runToEnd_busy hbusy, runToEnd_busy hbusy, coreStep_of_enc hp]
    by_cases hrd : s.rd < s.len
    · rw [if_pos hrd]
      refine andThen_congr fun t ht => ?_
      obtain ⟨-, -, rfl⟩ := encoderStep_next ht
      rw [emitted_loadCount]
      have hpos := scanCount_pos s.buf s.len s.rd
      exact ih (s := afterToken s) hp (show s.len - (s.rd + scanCount s.buf s.len s.rd) < k by omega)
    · rw [if_neg hrd, andThen_next, andThen_next, runToEnd_idle rfl, runToEnd_idle rfl]

theorem runToEnd_beginEncode (n : Nat) (s : State) :
    runToEnd (n + 2) (beginEncode n s) = runToEnd (n + 1) (beginEncode n s) := by
  rcases Nat.eq_zero_or_pos n with rfl | hpos
  · rw [beginEncode_zero, runToEnd_idle rfl, runToEnd_idle rfl]
  · rw [beginEncode_of_pos hpos]
    exact runToEnd_succ_of_enc rfl (Nat.lt_succ_self n)

/-! ### The command -/

theorem ifAccepted_of_too_long {n : Nat} {s : State} (hp : s.phase = .idle) (hn : s.cap < n)
    (f : State → Host.Outcome State Fault Refusal) : ifAccepted n s f = .refused .lenRange := by
  rw [ifAccepted, if_neg (not_not_intro hp), if_pos hn]

theorem exec_encode_of_too_long {n : Nat} {s : State} (hp : s.phase = .idle) (hn : s.cap < n) :
    exec (.encode n) s = .refused .lenRange :=
  (ifAccepted_of_too_long hp hn _ : execEncode n s = _)

theorem exec_decode_of_too_long {n : Nat} {s : State} (hp : s.phase = .idle) (hn : s.cap < n) :
    exec (.decode n) s = .refused .lenRange :=
  (ifAccepted_of_too_long hp hn _ : execDecode n s = _)

/-- Acceptance presents no further `START` and makes no move of the script (40_encoder R70). -/
theorem beginEncode_start_script (n : Nat) (s : State) :
    (beginEncode n s).start = s.start ∧ (beginEncode n s).script = s.script := by
  unfold beginEncode
  split <;> exact ⟨rfl, rfl⟩

/-- Acceptance presents no further `START` and makes no move of the script (41_decoder R90). -/
theorem beginDecode_start_script (n : Nat) (s : State) :
    (beginDecode n s).start = s.start ∧ (beginDecode n s).script = s.script := by
  unfold beginDecode
  split
  · exact ⟨rfl, rfl⟩
  · split <;> exact ⟨rfl, rfl⟩

/-- A command launched stepwise, and then the core's turns, is the whole command (92 D1). -/
theorem launchCommand_coreRun {s : State} (hp : s.phase = .idle) (hs : s.start = false) (hl : s.script = [])
    (op : BitVec 1) (n : Nat) :
    andThen (launchCommand op n s) (coreRun (n + 2)) = exec (if op = 0#1 then .encode n else .decode n) s := by
  by_cases hn : n ≤ s.cap
  · rw [launchCommand_idle hp hn, andThen_next]
    split
    · obtain ⟨hstart, hscript⟩ := beginEncode_start_script n s
      rw [coreRun_eq_runToEnd _ (hstart.trans hs) (hscript.trans hl), exec_encode_idle hp hn, runToEnd_beginEncode]
    · obtain ⟨hstart, hscript⟩ := beginDecode_start_script n s
      rw [coreRun_eq_runToEnd _ (hstart.trans hs) (hscript.trans hl), exec_decode_idle hp hn]
  · have hlong : s.cap < n := Nat.lt_of_not_le hn
    rw [launchCommand, ifAccepted_of_too_long hp hlong, andThen_refused]
    split
    · exact (exec_encode_of_too_long hp hlong).symm
    · exact (exec_decode_of_too_long hp hlong).symm

/-- Settles O43: the first step is the acceptance, the others are the algorithmic steps the whole command takes. -/
theorem stepwiseRefinesTransaction : Obligations.StepwiseRefinesTransaction := by
  intro s hs hw hp hl
  change coreRun (s.lenIn + 3) s = _
  rw [coreRun_succ, step_of_stepwise hs hw]
  exact launchCommand_coreRun (s := { s with start := false }) hp rfl hl s.op s.lenIn

end Sys2Proof.Machine
end

section
/-! Parse-safe streams (30_encoding R58 (d)): the parser reads back the tokens they were assembled from, and a running
`DECODE` performs exactly these (42_arithmetic R120). -/

namespace Sys2Proof

/-! ### What parse-safe says of the first token and of the rest -/

theorem parseSafe_cons_cons (t u : Instr) (rest : List Instr) :
    parseSafe (t :: u :: rest) = true ↔
      t.tokenWellFormed = true ∧ t.unsafePair u = false ∧ parseSafe (u :: rest) = true := by
  rw [parseSafe, Bool.and_eq_true, Bool.and_eq_true, Bool.not_eq_true', and_assoc]

theorem tokenWellFormed_of_parseSafe {t : Instr} {T : List Instr} (h : parseSafe (t :: T) = true) :
    t.tokenWellFormed = true := by
  cases T with
  | nil => exact h
  | cons u rest => exact ((parseSafe_cons_cons t u rest).mp h).1

theorem parseSafe_tail {t : Instr} {T : List Instr} (h : parseSafe (t :: T) = true) : parseSafe T = true := by
  cases T with
  | nil => rfl
  | cons u rest => exact ((parseSafe_cons_cons t u rest).mp h).2.2

theorem forall_tokenWellFormed_of_parseSafe {T : List Instr} (h : parseSafe T = true) :
    ∀ t ∈ T, t.tokenWellFormed = true := by
  induction T with
  | nil => simp
  | cons t T ih => exact List.forall_mem_cons.mpr ⟨tokenWellFormed_of_parseSafe h, ih (parseSafe_tail h)⟩

theorem isToken_of_tokenWellFormed {t : Instr} (h : t.tokenWellFormed = true) : t.isToken = true := by
  cases t with
  | encode n => cases h
  | decode n => cases h
  | run c v => rfl
  | lit b => rfl

/-! ### The parser on a parse-safe stream -/

/-- Behind a literal of a parse-safe list no flagged byte follows: neither a count of 128 or more nor a literal
(30_encoding R58 (d)). -/
theorem head_asm_le_of_parseSafe {b : Byte} {T : List Instr} (h : parseSafe (.lit b :: T) = true) :
    ∀ n ∈ (asm T).head?, n.toNat ≤ 127 := by
  cases T with
  | nil => simp [asm]
  | cons u rest =>
    obtain ⟨-, hpair, hrest⟩ := (parseSafe_cons_cons (.lit b) u rest).mp h
    have hu := tokenWellFormed_of_parseSafe hrest
    rintro n hn
    cases u with
    | encode k => cases hu
    | decode k => cases hu
    | run c v =>
      cases hn
      exact Nat.le_of_lt_succ (Nat.lt_of_not_le (of_decide_eq_false hpair))
    | lit d =>
      cases hn
      exact of_decide_eq_true hu

/-- The parser's first answer on a parse-safe stream is its first token (42_arithmetic R120). -/
theorem decodeToken_asm_cons {t : Instr} {T : List Instr} (h : parseSafe (t :: T) = true) :
    decodeToken (asm (t :: T)) = .ok (t, asm T) := by
  refine tokenDecodesInStream t (asm T) (isToken_of_tokenWellFormed (tokenWellFormed_of_parseSafe h)) ?_
  rintro ⟨b, rfl⟩
  exact head_asm_le_of_parseSafe h

/-- The whole parse is the parser's first answer, and the parse of what it leaves (30_encoding R55). -/
theorem parseStream_of_decodeToken {S rest : List Byte} {t : Instr} (h : decodeToken S = .ok (t, rest)) :
    parseStream S = t :: parseStream rest := by
  obtain ⟨b, rfl, rfl, hn⟩ | ⟨b, n, rfl, rfl, hn⟩ := decodeToken_cases h
  · cases rest with
    | nil => rfl
    | cons n rest =>
      have hclean : topBit n = false := hn
      rw [parseStream, if_neg (by simp [hclean])]
  · rw [parseStream, if_pos hn]

theorem parseStream_asm {T : List Instr} (h : parseSafe T = true) : parseStream (asm T) = T := by
  induction T with
  | nil => rfl
  | cons t T ih => rw [parseStream_of_decodeToken (decodeToken_asm_cons h), ih (parseSafe_tail h)]

theorem expand_asm {T : List Instr} (h : parseSafe T = true) : expand (asm T) = T.flatMap tokenOut := by
  rw [expIsTokensPerformed, parseStream_asm h]

namespace Machine

/-! ### The decoder on a parse-safe stream -/

/-- The parser on the bytes from `rd` on reads the token at `rd` and leaves the bytes behind it. -/
theorem decodeToken_slice (m : Memory) {len rd : Nat} (h : rd < len) :
    decodeToken (m.slice rd len) =
      .ok (streamToken m len rd, m.slice (rd + (tokenBytes (streamToken m len rd)).length) len) := by
  rw [m.slice_cons h]
  by_cases hnext : rd + 1 < len
  · rw [m.slice_cons hnext, decodeToken_cons_cons]
    by_cases hn : topBit (m.get (rd + 1)) = true
    · rw [if_pos hn, streamToken_of_run ⟨hnext, hn⟩]; rfl
    · rw [if_neg hn, streamToken_of_not_run fun hrun => hn hrun.2, ← m.slice_cons hnext]; rfl
  · have hend : m.slice (rd + 1) len = [] := m.slice_of_le (Nat.le_of_not_lt hnext)
    rw [streamToken_of_not_run fun hrun => hnext hrun.1, tokenBytes, List.length_singleton, hend]; rfl

/-- A token that goes on has been performed: the other case is the overrun (41_decoder R105). -/
theorem eq_performed_of_exec {t : Instr} {s u : State} (ht : t.isToken = true) (h : exec t s = .next u) :
    u = performed t s := by
  by_cases hroom : s.wr + (tokenOut t).length ≤ s.cap
  · rw [exec_token_of_room ht hroom] at h; cases h; rfl
  · rw [exec_token_of_overrun ht (Nat.lt_of_not_le hroom)] at h; cases h

/-- A running `DECODE` whose stream from `rd` on is parse-safe performs its tokens, in order, up to the first overrun,
and then completes (42_arithmetic R120). -/
theorem runToEnd_dec_eq_performAll {T : List Instr} {s : State} {m : Memory} (hT : parseSafe T = true)
    (hp : s.phase = .dec) (hm : s.scr = some m) (hs : s.len ≤ m.size) (hslice : m.slice s.rd s.len = asm T) :
    runToEnd (T.length + 1) s = andThen (performAll T s) fun t => .next (finishCommand (releaseScratch t)) := by
  induction T generalizing s with
  | nil =>
    have hend : s.len - s.rd = 0 := by rw [← m.slice_length, hslice]; rfl
    have hbusy : s.phase ≠ .idle := by simp [hp]
    rw [runToEnd_busy hbusy, coreStep_of_dec hp, if_neg (by omega)]; rfl
  | cons t T ih =>
    have hwf := tokenWellFormed_of_parseSafe hT
    have hrd : s.rd < s.len := by
      by_contra hge
      rw [m.slice_of_le (Nat.le_of_not_lt hge)] at hslice
      exact tokenBytes_ne_nil hwf (List.append_eq_nil_iff.mp hslice.symm).1
    have hparse := (decodeToken_slice m hrd).symm.trans (hslice ▸ decodeToken_asm_cons hT)
    obtain ⟨ht, hrest⟩ := Prod.mk.inj (Except.ok.inj hparse)
    have hbusy : s.phase ≠ .idle := by simp [hp]
    rw [List.length_cons, runToEnd_busy hbusy, coreStep_eq_exec hp hm hs hrd, ht, performAll, andThen_assoc]
    refine andThen_congr fun u hu => ?_
    obtain rfl := eq_performed_of_exec (isToken_of_tokenWellFormed hwf) hu
    refine ih (parseSafe_tail hT) (by simpa using hp) (by simpa using hm) (by simpa using hs) ?_
    rw [performed_rd, performed_len, ← ht, hrest]

/-- Settles O23: the parser reads the tokens back, and the loop performs what it reads. -/
theorem parserRecoversParseSafeStream : Obligations.ParserRecoversParseSafeStream := by
  intro T s m hT hp hrd hm hsize hslice
  exact ⟨parseStream_asm hT, runToEnd_dec_eq_performAll hT hp hm hsize.ge (hrd ▸ hslice)⟩

end Machine

end Sys2Proof
end

section
/-! What `Tok` and the parser keep (42_arithmetic R115 to R118): the bytes a token list stands for, how long its stream
is, and how many tokens there are. -/

namespace Sys2Proof

/-! ### The bytes the tokens of `Tok` stand for -/

/-- Induction along the recursion of `Tok` (40_encoder R78): a byte with those equal to it, and what follows them. -/
theorem tok_induction {P : List Byte → Prop} (nil : P [])
    (cons : ∀ v B, P (B.drop (leadCount v 254 B)) → P (v :: B)) (B : List Byte) : P B :=
  match B with
  | [] => nil
  | v :: B => cons v B (tok_induction nil cons (B.drop (leadCount v 254 B)))
termination_by B.length
decreasing_by simp

theorem tokenOut_tokenFor (v : Byte) {k : Nat} (hpos : 1 ≤ k) (h : k ≤ 255) :
    tokenOut (tokenFor v k) = List.replicate k (andMask v) := by
  by_cases hk : 1 < k
  · rw [tokenFor_of_one_lt v hk, tokenOut, valueByte_valueBits, toNat_ofNat_of_le_maxRun h]
  · rw [tokenFor, if_neg hk, tokenOut, show k = 1 by omega]; rfl

/-- Performing the tokens of `Tok(B)` writes the bytes of `B`, each with its top bit off (40_encoder R75). -/
theorem flatMap_tokenOut_tok (B : List Byte) : (tok B).flatMap tokenOut = B.map andMask := by
  induction B using tok_induction with
  | nil => rfl
  | cons v B ih =>
    have hroom := leadCount_le_room v 254 B
    have htake : (B.take (leadCount v 254 B)).map andMask = List.replicate (leadCount v 254 B) (andMask v) := by
      rw [take_leadCount, List.map_replicate]
    rw [tok_cons, List.flatMap_cons, ih, tokenOut_tokenFor v (by omega) (by omega), List.replicate_succ, ← htake,
      List.cons_append, ← List.map_append, List.take_append_drop, List.map_cons]

theorem map_andMask_of_clean7 {B : List Byte} (h : clean7 B) : B.map andMask = B :=
  List.map_congr_left (fun b hb => andMask_of_clean b (h b hb)) |>.trans (List.map_id B)

/-- The codec's round trip (42_arithmetic R116 (a)), on byte strings. -/
theorem expand_asm_tok {B : List Byte} (hclean : clean7 B) (hsafe : parseSafe (tok B) = true) :
    expand (asm (tok B)) = B := by
  rw [expand_asm hsafe, flatMap_tokenOut_tok, map_andMask_of_clean7 hclean]

/-! ### Lengths -/

theorem tokenCount_eq_length (t : Instr) : tokenCount t = (tokenOut t).length := by
  cases t with
  | encode n => rfl
  | decode n => rfl
  | run c v => exact List.length_replicate.symm
  | lit b => rfl

theorem sum_tokenCount_eq_length (T : List Instr) : (T.map tokenCount).sum = (T.flatMap tokenOut).length := by
  rw [List.length_flatMap, List.map_congr_left fun t _ => tokenCount_eq_length t]

/-- The encoder's counts add up to the bytes it has read (40_encoder R76). -/
theorem sum_tokenCount_tok (B : List Byte) : ((tok B).map tokenCount).sum = B.length := by
  rw [sum_tokenCount_eq_length, flatMap_tokenOut_tok, List.length_map]

/-- The length of a token's bytes, by what it stands for: a literal is one byte for one, a run two for 2 to 255
(30_encoding R58 (a)). -/
theorem tokenBytes_length_cases {t : Instr} (h : t.tokenWellFormed = true) :
    ((tokenBytes t).length = 1 ∧ tokenCount t = 1) ∨
      ((tokenBytes t).length = 2 ∧ 2 ≤ tokenCount t ∧ tokenCount t ≤ 255) := by
  cases t with
  | encode n => cases h
  | decode n => cases h
  | run c v => exact .inr ⟨rfl, of_decide_eq_true h, Nat.le_of_lt_succ c.isLt⟩
  | lit b => exact .inl ⟨rfl, rfl⟩

theorem asm_length_cons (t : Instr) (T : List Instr) :
    (asm (t :: T)).length = (tokenBytes t).length + (asm T).length := by
  rw [asm, List.length_append]

/-- A well-formed stream is no longer than what it stands for, and no shorter than 2 bytes in 255
(42_arithmetic R115). -/
theorem asm_length_bounds {T : List Instr} (h : ∀ t ∈ T, t.tokenWellFormed = true) :
    (asm T).length ≤ (T.map tokenCount).sum ∧ 2 * (T.map tokenCount).sum ≤ 255 * (asm T).length := by
  induction T with
  | nil => simp [asm]
  | cons t T ih =>
    obtain ⟨ht, hT⟩ := List.forall_mem_cons.mp h
    have hrest := ih hT
    have htoken := tokenBytes_length_cases ht
    rw [asm_length_cons, List.map_cons, List.sum_cons]
    omega

/-- The stream is as long as what it stands for exactly where no token counts more than 2 (42_arithmetic R115). -/
theorem asm_length_eq_iff {T : List Instr} (h : ∀ t ∈ T, t.tokenWellFormed = true) :
    (asm T).length = (T.map tokenCount).sum ↔ ∀ t ∈ T, tokenCount t ≤ 2 := by
  induction T with
  | nil => simp [asm]
  | cons t T ih =>
    obtain ⟨ht, hT⟩ := List.forall_mem_cons.mp h
    obtain ⟨hle, -⟩ := asm_length_bounds hT
    have htoken := tokenBytes_length_cases ht
    rw [List.forall_mem_cons, ← ih hT, asm_length_cons, List.map_cons, List.sum_cons]
    omega

/-- Settles O19: the stream's length is that of `Asm(Tok(B))`, whose tokens are well-formed and count up to `n`. -/
theorem encodeNeverGrows : Obligations.EncodeNeverGrows := by
  intro s n hp hn hbuf
  obtain ⟨t, hexec, ⟨hout, -⟩, -⟩ := Machine.encodeIsTok s n hp hn hbuf
  have hwf := canonicalStreamsWellFormed (s.buf.slice 0 n)
  have hsum : ((tok (s.buf.slice 0 n)).map tokenCount).sum = n := by
    rw [sum_tokenCount_tok, Machine.Memory.slice_length, Nat.sub_zero]
  have hiff := asm_length_eq_iff hwf
  have hbounds := asm_length_bounds hwf
  rw [hsum, ← hout] at hiff hbounds
  exact ⟨t, hexec, hbounds.1, hiff, by omega, by omega⟩

/-! ### Numbers of tokens -/

theorem parseStream_length_bounds (S : List Byte) :
    (parseStream S).length ≤ S.length ∧ S.length ≤ 2 * (parseStream S).length := by
  induction S using parseStream.induct with
  | case1 => exact ⟨le_rfl, le_rfl⟩
  | case2 b => exact ⟨le_rfl, Nat.le_succ 1⟩
  | case3 b n rest hn ih =>
    rw [parseStream, if_pos hn]
    simp only [List.length_cons]
    omega
  | case4 b n rest hn ih =>
    rw [parseStream, if_neg hn]
    simp only [List.length_cons] at ih ⊢
    omega

theorem tok_length_bounds (B : List Byte) : (tok B).length ≤ B.length ∧ B.length ≤ 255 * (tok B).length := by
  have hcount : ∀ c ∈ (tok B).map tokenCount, 1 ≤ c ∧ c ≤ 255 := by
    intro c hc
    obtain ⟨t, ht, rfl⟩ := List.mem_map.mp hc
    have := tokenBytes_length_cases (canonicalStreamsWellFormed B t ht)
    omega
  have hmin := List.card_nsmul_le_sum _ 1 fun c hc => (hcount c hc).1
  have hmax := List.sum_le_card_nsmul _ 255 fun c hc => (hcount c hc).2
  rw [sum_tokenCount_tok, List.length_map, smul_eq_mul] at hmin hmax
  omega

/-- Settles O30: a token of `Tok` stands for 1 to 255 bytes, and the parser consumes 1 or 2. -/
theorem tokenCountBounds : Obligations.TokenCountBounds := ⟨tok_length_bounds, parseStream_length_bounds⟩

/-! ### The length of the expansion -/

/-- A pair writes at most 255 bytes and possibly none, a literal exactly one (42_arithmetic R118). -/
theorem expand_length_bounds (S : List Byte) :
    (expand S).length ≤ 255 * (S.length / 2) + S.length % 2 ∧ S.length % 2 ≤ (expand S).length := by
  induction S using expand.induct with
  | case1 => exact ⟨le_rfl, le_rfl⟩
  | case2 b => simp [expand]
  | case3 b n rest hn ih =>
    have hcount := b.isLt
    rw [expand_of_flagged b hn, List.length_append, List.length_replicate]
    simp only [List.length_cons]
    omega
  | case4 b n rest hn ih =>
    rw [expand_of_not_flagged b (by simpa using hn)]
    simp only [List.length_cons] at ih ⊢
    omega

/-- Equal pairs write their count each, whatever follows them. -/
theorem expand_pairs_append_length (c x : Byte) (k : Nat) (rest : List Byte) :
    (expand ((List.replicate k [c, orFlag x]).flatten ++ rest)).length = c.toNat * k + (expand rest).length := by
  induction k with
  | zero => simp
  | succ k ih =>
    rw [List.replicate_succ, List.flatten_cons, List.append_assoc, List.cons_append, List.cons_append,
      List.nil_append, expand_of_flagged c (topBit_orFlag x), List.length_append, List.length_replicate, ih]
    ring

theorem expand_pairs_length (c x : Byte) (k : Nat) :
    (expand (List.replicate k [c, orFlag x]).flatten).length = c.toNat * k := by
  simpa [expand] using expand_pairs_append_length c x k []

/-- A parse-safe stream is no longer than its expansion (42_arithmetic R118). -/
theorem asm_length_le_expand {T : List Instr} (h : parseSafe T = true) : (asm T).length ≤ (expand (asm T)).length := by
  rw [expand_asm h, ← sum_tokenCount_eq_length]
  exact (asm_length_bounds (forall_tokenWellFormed_of_parseSafe h)).1

/-- Settles O24: both bounds, the pairs that reach them, and the parse-safe streams. -/
theorem expansionBounds : Obligations.ExpansionBounds := by
  refine ⟨expand_length_bounds, fun k v b => ⟨?_, ?_, ?_, ?_⟩, fun _ => asm_length_le_expand⟩
  · exact expand_pairs_length ..
  · exact expand_pairs_append_length ..
  · exact (expand_pairs_length ..).trans (Nat.zero_mul k)
  · rw [expand_pairs_append_length, BitVec.toNat_zero, Nat.zero_mul]; rfl

end Sys2Proof
end

section
/-! Which raw bytes come back (42_arithmetic R116, R121): the short runs, the buffer that is overrun, the round trip. -/

namespace Sys2Proof

/-! ### Bytes without 128 equal ones in a row -/

/-- No 128 consecutive bytes are equal (42_arithmetic R116). -/
def NoLongRun (B : List Byte) : Prop :=
  ∀ i v, i + 128 ≤ B.length → (B.drop i).take 128 ≠ List.replicate 128 v

theorem NoLongRun.drop {B : List Byte} (h : NoLongRun B) (k : Nat) : NoLongRun (B.drop k) := by
  intro i v hi
  rw [List.length_drop] at hi
  rw [List.drop_drop]
  exact h (k + i) v (by omega)

/-- At the front of such bytes the encoder counts at most 127. -/
theorem NoLongRun.leadCount_lt {v : Byte} {B : List Byte} (h : NoLongRun (v :: B)) (room : Nat) :
    leadCount v room B < 127 := by
  by_contra hge
  have hlong : 127 ≤ leadCount v room B := Nat.le_of_not_lt hge
  have hlength := leadCount_le_length v room B
  have htake : B.take 127 = List.replicate 127 v := by
    have hprefix := congrArg (List.take 127) (take_leadCount v room B)
    rwa [List.take_take, List.take_replicate, Nat.min_eq_left hlong] at hprefix
  refine h 0 v (by rw [List.length_cons]; omega) ?_
  rw [List.drop_zero, List.take_succ_cons, htake]; rfl

theorem tokenCount_tokenFor (v : Byte) {k : Nat} (hpos : 1 ≤ k) (h : k ≤ 255) : tokenCount (tokenFor v k) = k := by
  rw [tokenCount_eq_length, tokenOut_tokenFor v hpos h, List.length_replicate]

theorem tokenCount_le_of_noLongRun {B : List Byte} (h : NoLongRun B) : ∀ t ∈ tok B, tokenCount t ≤ 127 := by
  induction B using tok_induction with
  | nil => simp
  | cons v B ih =>
    have hlt := h.leadCount_lt 254
    rw [tok_cons, List.forall_mem_cons, tokenCount_tokenFor v (by omega) (by omega)]
    exact ⟨hlt, ih (h.drop (leadCount v 254 B + 1))⟩

theorem unsafePair_of_tokenCount_le (t : Instr) {u : Instr} (h : tokenCount u ≤ 127) : t.unsafePair u = false := by
  cases t with
  | lit b =>
    cases u with
    | run c v => exact decide_eq_false (by rw [tokenCount] at h; omega)
    | _ => rfl
  | _ => rfl

/-- Without a run of 128 or more there is no pair that the parser misreads (30_encoding R60). -/
theorem parseSafe_of_tokenCount_le {T : List Instr} (hwf : ∀ t ∈ T, t.tokenWellFormed = true)
    (hcount : ∀ t ∈ T, tokenCount t ≤ 127) : parseSafe T = true := by
  induction T with
  | nil => rfl
  | cons t T ih =>
    obtain ⟨ht, hT⟩ := List.forall_mem_cons.mp hwf
    obtain ⟨-, hcountT⟩ := List.forall_mem_cons.mp hcount
    cases T with
    | nil => exact ht
    | cons u rest =>
      exact (parseSafe_cons_cons t u rest).mpr
        ⟨ht, unsafePair_of_tokenCount_le t (hcountT u List.mem_cons_self), ih hT hcountT⟩

/-- Settles O26: the encoder counts at most 127 equal bytes at a time, so no run of its list can be misread. -/
theorem shortRunsAreParseSafe : Obligations.ShortRunsAreParseSafe := fun B h =>
  parseSafe_of_tokenCount_le (canonicalStreamsWellFormed B) (tokenCount_le_of_noLongRun h)

/-! ### The example of 42_arithmetic R121 -/

theorem leadCount_replicate_append (v : Byte) (room n : Nat) {C : List Byte} (hC : ∀ b ∈ C.head?, b ≠ v) :
    leadCount v room (List.replicate n v ++ C) = min room n := by
  induction room generalizing n with
  | zero => simp [leadCount]
  | succ room ih =>
    cases n with
    | zero =>
      cases C with
      | nil => rfl
      | cons b C => exact leadCount_cons_of_ne (hC b rfl) _ C
    | succ n => rw [List.replicate_succ, List.cons_append, leadCount, if_pos rfl, ih]; omega

/-- At most 255 equal bytes, with no further one behind them, are one token. -/
theorem tok_replicate_append {v : Byte} {n : Nat} (hpos : 0 < n) (h : n ≤ 255) {C : List Byte}
    (hC : ∀ b ∈ C.head?, b ≠ v) : tok (List.replicate n v ++ C) = tokenFor v n :: tok C := by
  obtain ⟨n, rfl⟩ := Nat.exists_eq_add_one.mpr hpos
  have hdrop : (List.replicate n v ++ C).drop n = C := by
    rw [List.drop_append_of_le_length (by simp), List.drop_replicate, Nat.sub_self]; rfl
  rw [List.replicate_succ, List.cons_append, tok_cons, leadCount_replicate_append v 254 n hC,
    Nat.min_eq_right (by omega), hdrop]

/-- The stream of the example: a literal and two runs of 128 (42_arithmetic R121). -/
theorem asm_tok_overrunExample :
    asm (tok ([0x7F#8] ++ List.replicate 128 0x05#8 ++ List.replicate 128 0x06#8)) =
      [0x7F#8, 0x80#8, 0x85#8, 0x80#8, 0x86#8] := by
  have hlit : [0x7F#8] = List.replicate 1 0x7F#8 := rfl
  have hlast : tok (List.replicate 128 0x06#8) = [tokenFor 0x06#8 128] :=
    tok_replicate_of_le (by omega) (by omega) _
  rw [hlit, List.append_assoc, tok_replicate_append (by omega) (by omega) (by simp),
    tok_replicate_append (by omega) (by omega) (by simp), hlast]
  rfl

/-- Misread, the example's five bytes are two runs of 127 and 133 bytes and a literal (42_arithmetic R121). -/
theorem expand_overrunExample_length : (expand [0x7F#8, 0x80#8, 0x85#8, 0x80#8, 0x86#8]).length = 261 := by
  rw [expand_of_flagged _ rfl, expand_of_flagged _ rfl, List.length_append, List.length_append,
    List.length_replicate, List.length_replicate]
  rfl

namespace Machine

/-- Settles O28: the encoding is the five bytes, and what they expand to is 261 bytes, more than `CAP`. -/
theorem ownEncodingCanOverrun : Obligations.OwnEncodingCanOverrun := by
  intro s hp hbuf hcap hok hbytes
  obtain ⟨t, hexec, hdone, hprefix, hframe, -⟩ := encodeIsTok s 257 hp hcap.ge hbuf
  rw [hbytes, asm_tok_overrunExample] at hdone hprefix
  refine ⟨t, hexec, hdone, hprefix, ?_⟩
  obtain ⟨hout, -, -, -, -, hidle⟩ := hdone
  obtain ⟨hslice, -, hbuf'⟩ := hprefix
  obtain ⟨hsize, -, -, -, -, hscratch, -⟩ := hframe
  have hcap' : t.cap = 257 := hsize.trans hcap
  have hlen : t.lenOut = 5 := hout
  have hstream : t.buf.slice 0 5 = [0x7F#8, 0x80#8, 0x85#8, 0x80#8, 0x86#8] := hslice
  rw [hlen, exec_decode_of_scratch hidle (by omega) hbuf' (by omega) (hscratch.trans hok), hstream]
  refine decodeOutcome_of_overrun ?_
  rw [expand_overrunExample_length]
  exact Nat.lt_of_le_of_lt hcap'.le (by omega)

/-! ### The round trip of the commands -/

/-- Settles O25: `DECODE` reads the stream `ENCODE` has left, which expands to the raw bytes. -/
theorem roundTrip : Obligations.RoundTrip := by
  intro s n hp hn hbuf hok hclean hsafe
  obtain ⟨t, hexec, ⟨hout, -, -, -, -, hidle⟩, ⟨hstream, -, hbuf'⟩, ⟨hsize, -, -, -, -, hscratch, -⟩, -⟩ :=
    encodeIsTok s n hp hn hbuf
  have hcap : t.cap = s.cap := hsize
  have hfits : t.lenOut ≤ t.cap := by
    have := asm_tok_length_le (s.buf.slice 0 n)
    rw [← hout, Memory.slice_length] at this
    exact (this.trans hn).trans hcap.ge
  have hback : expand (t.buf.slice 0 t.lenOut) = s.buf.slice 0 n := by
    rw [hout, hstream, expand_asm_tok hclean hsafe]
  have hlength : (s.buf.slice 0 n).length = n := by rw [Memory.slice_length, Nat.sub_zero]
  have hdecode := decodeIsExp t t.lenOut hidle hfits hbuf'
  rw [hback, hlength] at hdecode
  split at hdecode
  · next hzero =>
    rw [hzero, Memory.slice_self, expand] at hback
    obtain rfl : n = 0 := by rw [← hlength, ← hback]; rfl
    obtain ⟨u, hexec', hdone, -⟩ := hdecode
    exact ⟨t, u, hexec, hexec', hdone, by rw [Memory.slice_self, Memory.slice_self]⟩
  · rw [if_neg (by simp [hscratch, hok]), if_pos (hn.trans hcap.ge)] at hdecode
    obtain ⟨u, hexec', hdone, ⟨hbytes, -⟩, -⟩ := hdecode
    rw [hlength] at hbytes
    exact ⟨t, u, hexec, hexec', hdone, hbytes⟩

end Machine

end Sys2Proof
end

section
/-! What a command's outcome depends on (42_arithmetic R119, 10_state R10): its result as a function of the input. -/

namespace Sys2Proof.Machine

/-- Two final states show the same result, and `t` has no byte changed at or behind both `n` and `LEN_OUT`
(42_arithmetic R119). -/
def SameResult (n : Nat) (s t t' : State) : Prop :=
  t'.lenOut = t.lenOut ∧ t'.err = t.err ∧ t'.cause = t.cause ∧
    t'.buf.slice 0 t.lenOut = t.buf.slice 0 t.lenOut ∧ ∀ j, n ≤ j → t.lenOut ≤ j → t.buf.get j = s.buf.get j

/-- What a command shows at its end: the bytes it has written, `ERR` and `CAUSE`. -/
structure Result where
  out : List Byte
  err : Bool
  cause : BitVec 2

/-- The outcome `o` of a command from `s` shows a result, or it is the overrun fault where there is none. -/
def Shows (s : State) (o : Host.Outcome State Fault Refusal) : Option Result → Prop
  | some r => ∃ t, o = .next t ∧ t.lenOut = r.out.length ∧ t.err = r.err ∧ t.cause = r.cause ∧ prefixWritten s t r.out
  | none => o = .fault .destOverrun

theorem Shows.of_completed {s t : State} {o : Host.Outcome State Fault Refusal} {out : List Byte} (ho : o = .next t)
    (h : completed t out.length) (hw : prefixWritten s t out) : Shows s o (some ⟨out, false, 0⟩) := by
  obtain ⟨hout, herr, hcause, -⟩ := h
  exact ⟨t, ho, hout, herr, hcause, hw⟩

/-- Where `BUF` is as it was, nothing has been written. -/
theorem prefixWritten_nil {s t : State} (hbuf : s.buf.wf) (h : t.buf = s.buf) : prefixWritten s t [] :=
  ⟨Memory.slice_self .., fun _ _ => by rw [h], h ▸ hbuf⟩

/-- The result of a `DECODE` of the bytes `S`, by `CAP` and the answer of `ScratchAvail` (41_decoder R102). -/
def decodeResult (cap : Nat) (scratchOk : Bool) (S : List Byte) : Option Result :=
  if S.length = 0 then some ⟨[], false, 0⟩
  else if scratchOk = false then some ⟨[], true, 1⟩
  else if (expand S).length ≤ cap then some ⟨expand S, false, 0⟩
  else none

section
variable {s : State} {n : Nat} (hp : s.phase = .idle) (hn : n ≤ s.cap) (hbuf : s.buf.wf)
include hp hn hbuf

theorem exec_encode_shows : Shows s (exec (.encode n) s) (some ⟨asm (tok (s.buf.slice 0 n)), false, 0⟩) := by
  obtain ⟨t, hexec, hdone, hw, -⟩ := encodeIsTok s n hp hn hbuf
  exact .of_completed hexec hdone hw

theorem exec_decode_shows : Shows s (exec (.decode n) s) (decodeResult s.cap s.scratchOk (s.buf.slice 0 n)) := by
  have hdecode := decodeIsExp s n hp hn hbuf
  rw [decodeResult, Memory.slice_length, Nat.sub_zero]
  split at hdecode
  · next hzero =>
    obtain ⟨t, hexec, hdone, hsame, -⟩ := hdecode
    rw [if_pos hzero]
    exact .of_completed hexec hdone (prefixWritten_nil hbuf hsame)
  · next hpos =>
    rw [if_neg hpos]
    split at hdecode
    · next hnone =>
      obtain ⟨t, hexec, hout, herr, hcause, -, -, -, hsame, -⟩ := hdecode
      rw [if_pos hnone]
      exact ⟨t, hexec, hout, herr, hcause, prefixWritten_nil hbuf hsame⟩
    · next hscratch =>
      rw [if_neg hscratch]
      split at hdecode
      · next hfits =>
        obtain ⟨t, hexec, hdone, hw, -⟩ := hdecode
        rw [if_pos hfits]
        exact .of_completed hexec hdone hw
      · next hlong =>
        rw [if_neg hlong]
        exact hdecode

end

/-- Two outcomes that show one result agree in what is seen of them. -/
theorem Shows.agree {s s' : State} {o o' : Host.Outcome State Fault Refusal} {r : Option Result} (h : Shows s o r)
    (h' : Shows s' o' r) (n : Nat) :
    (∃ t t', o = .next t ∧ o' = .next t' ∧ SameResult n s t t') ∨ ∃ f, o = .fault f ∧ o' = .fault f := by
  cases r with
  | none => exact .inr ⟨_, h, h'⟩
  | some r =>
    obtain ⟨t, ho, hout, herr, hcause, hslice, hbehind, -⟩ := h
    obtain ⟨t', ho', hout', herr', hcause', hslice', -, -⟩ := h'
    refine .inl ⟨t, t', ho, ho', hout'.trans hout.symm, herr'.trans herr.symm, hcause'.trans hcause.symm, ?_,
      fun j _ hj => hbehind j (hout ▸ hj)⟩
    rw [hout, hslice, hslice']

/-- Settles O29: either command's result is a function of `CAP`, `ScratchAvail` and the bytes below `n`. -/
theorem commandsDependOnlyOnInput : Obligations.CommandsDependOnlyOnInput := by
  intro s s' n i hi hp hp' hn hcap hok hbuf hbuf' hbytes
  have hslice : s'.buf.slice 0 n = s.buf.slice 0 n := Memory.slice_congr fun j _ hj => hbytes j hj
  have hn' : n ≤ s'.cap := hn.trans hcap.ge
  obtain ⟨r, h, h'⟩ : ∃ r, Shows s (exec i s) r ∧ Shows s' (exec i s') r := by
    rcases hi with rfl | rfl
    · exact ⟨_, exec_encode_shows hp hn hbuf, hslice ▸ exec_encode_shows hp' hn' hbuf'⟩
    · refine ⟨_, exec_decode_shows hp hn hbuf, ?_⟩
      rw [← hslice, ← hcap, ← hok]
      exact exec_decode_shows hp' hn' hbuf'
  obtain ⟨t, t', hnext, hnext', hsame⟩ | ⟨f, hfault, hfault'⟩ := h.agree h' n
  · rw [hnext, hnext']; exact hsame
  · rw [hfault, hfault']

end Sys2Proof.Machine
end

section
/-! The bit operations (42_arithmetic R112). -/

namespace Sys2Proof

theorem getLsbD_orFlag_of_lt (x : Byte) {j : Nat} (h : j < 7) : (orFlag x).getLsbD j = x.getLsbD j := by
  have hclear : ∀ j < 7, (0x80#8).getLsbD j = false := by decide
  rw [orFlag, BitVec.getLsbD_or, hclear j h, Bool.or_false]

theorem getLsbD_andMask_of_lt (x : Byte) {j : Nat} (h : j < 7) : (andMask x).getLsbD j = x.getLsbD j := by
  have hset : ∀ j < 7, (0x7F#8).getLsbD j = true := by decide
  rw [andMask, BitVec.getLsbD_and, hset j h, Bool.and_true]

/-- Settles O6: the masks 80 and 7F differ from the neutral ones in bit 7 only. -/
theorem bitOperations : Obligations.BitOperations := by
  refine ⟨fun x => ⟨topBit_orFlag x, fun j hj => getLsbD_orFlag_of_lt x hj, topBit_andMask x,
    fun j hj => getLsbD_andMask_of_lt x hj, topBit_eq_true_iff x, andMask_orFlag x, fun hx => ?_⟩, rfl, rfl, rfl⟩
  have hsame : andMask x = x := andMask_of_clean x ((topBit_eq_false_iff x).mpr hx)
  exact ⟨(andMask_orFlag x).trans hsame, hsame⟩

end Sys2Proof
end

section
/-! The Integrity Checker (43_testbench_checker R130, R132). -/

namespace Sys2Proof

/-- R130: the two strings agree, present or absent, at every place below `n`. -/
theorem isEqual_eq_true_iff (A B : List Byte) (n : Nat) : isEqual A B n = true ↔ ∀ i < n, A[i]? = B[i]? := by
  simp only [isEqual, List.all_eq_true, List.mem_range, decide_eq_true_iff]

theorem isEqual_self (X : List Byte) (n : Nat) : isEqual X X n = true :=
  (isEqual_eq_true_iff X X n).mpr fun _ _ => rfl

theorem isEqual_length_eq_true_iff {A B : List Byte} (h : A.length = B.length) :
    isEqual A B A.length = true ↔ A = B := by
  rw [isEqual_eq_true_iff, List.ext_getElem?_iff', ← h, Nat.max_self]

/-- Settles O31: at the common length no place is left out, so agreement at each place below it is equality. -/
theorem checkerIsEquality : Obligations.CheckerIsEquality :=
  ⟨fun _ _ => isEqual_length_eq_true_iff, isEqual_self⟩

end Sys2Proof
end

section
/-! Errors, refusals and the status fields (60_exceptions R143 to R147, R153). -/

namespace Sys2Proof.Machine

/-! ### The status fields while idle -/

/-- The status fields of `t` are those of `s` (10_state R21). -/
def SameStatus (s t : State) : Prop :=
  t.busy = s.busy ∧ t.done = s.done ∧ t.err = s.err ∧ t.cause = s.cause ∧ t.lenOut = s.lenOut

/-- While idle the core's turn has nothing to do (10_state R19 (b)). -/
theorem sameStatus_of_coreStep {s t : State} (hp : s.phase = .idle) (h : coreStep s = .next t) : SameStatus s t := by
  rw [coreStep_of_idle hp] at h
  cases h
  exact ⟨rfl, rfl, rfl, rfl, rfl⟩

/-- Host and environment write no status field except by `RST` (60_exceptions R147, R152). -/
theorem sameStatus_of_takeMove {e : Event} {s t : State} (hp : s.phase = .idle) (he : e ≠ .reset)
    (h : takeMove e s = .next t) : SameStatus s t := by
  obtain ⟨i, b, -, -, -, rfl⟩ | ⟨op, n, w, -, -, rfl⟩ | ⟨ok, -, rfl⟩ | ⟨hreset, -⟩ | ⟨-, hturn⟩ := takeMove_next h
  case inr.inr.inr.inl => exact absurd hreset he
  case inr.inr.inr.inr => exact sameStatus_of_coreStep hp hturn
  all_goals exact ⟨rfl, rfl, rfl, rfl, rfl⟩

/-- Settles O37: with no `START` pending the step is the core's turn or a move. -/
theorem statusHoldsWhileIdle : Obligations.StatusHoldsWhileIdle := by
  intro s t hp hs hreset h
  change SameStatus s t
  obtain ⟨hstart, -, -⟩ | ⟨hstart, -, -⟩ | ⟨-, -, hturn⟩ | ⟨e, rest, -, hl, hmove⟩ := step_next h
  · simp [hs] at hstart
  · simp [hs] at hstart
  · exact sameStatus_of_coreStep hp hturn
  · have he : e ≠ .reset := by simpa [hl] using hreset
    exact sameStatus_of_takeMove (s := { s with script := rest }) hp he hmove

/-! ### What ends a command at its acceptance, and what faults a token -/

/-- Settles O32: the command is its acceptance and the raised error, which set the fields of R146. -/
theorem allocationFailureCompletes : Obligations.AllocationFailureCompletes := fun _ _ hp hpos hn hok =>
  exec_decode_of_no_scratch hp hn hpos hok

/-- Settles O33: the second check of R145 for the commands, the overrun check of R105 for the tokens. -/
theorem lenRangeAndDestOverrun : Obligations.LenRangeAndDestOverrun :=
  ⟨fun _ _ hp hn => ⟨exec_encode_of_too_long hp hn, exec_decode_of_too_long hp hn⟩,
    fun _ _ v hover => execRun_of_overrun hover v, fun _ b hover => execLit_of_overrun hover b⟩

/-! ### `START` while a command runs -/

/-- The first check of R145: a command that finds another one running changes nothing (60_exceptions R153). -/
theorem ifAccepted_of_busy {s : State} (hp : s.phase ≠ .idle) (n : Nat)
    (f : State → Host.Outcome State Fault Refusal) : ifAccepted n s f = .next s := if_pos hp

theorem exec_encode_of_busy {s : State} (hp : s.phase ≠ .idle) (n : Nat) : exec (.encode n) s = .next s :=
  (ifAccepted_of_busy hp n _ : execEncode n s = _)

theorem exec_decode_of_busy {s : State} (hp : s.phase ≠ .idle) (n : Nat) : exec (.decode n) s = .next s :=
  (ifAccepted_of_busy hp n _ : execDecode n s = _)

theorem launchCommand_of_busy {s : State} (hp : s.phase ≠ .idle) (op : BitVec 1) (n : Nat) :
    launchCommand op n s = .next s := ifAccepted_of_busy hp n _

/-- Settles O34: a pending `START` is taken, and stepwise or whole its command stops at the first check of R145. -/
theorem startWhileBusyNotAccepted : Obligations.StartWhileBusyNotAccepted := by
  refine fun s hp => ⟨fun n => ⟨exec_encode_of_busy hp n, exec_decode_of_busy hp n⟩, fun hs => ?_⟩
  have hbusy : { s with start := false }.phase ≠ .idle := hp
  by_cases hw : s.stepwise = true
  · rw [step_of_stepwise hs hw, launchCommand_of_busy hbusy]
  · rw [stepRunsCommand s hs (Bool.eq_false_of_not_eq_true hw)]
    split
    · exact exec_encode_of_busy hbusy _
    · exact exec_decode_of_busy hbusy _

end Sys2Proof.Machine
end

section
/-! Reset: the move `RST` from any phase, and the state right after reset (70_reset R160, R162; 10_state R25). -/

namespace Sys2Proof.Machine

/-- `RST` as the next move: the reset event, with the move taken (70_reset R160; log 6). -/
theorem step_of_reset {s : State} {rest : List Event} (hs : s.start = false) (hl : s.script = .reset :: rest) :
    step s = .next (resetEvent { s with script := rest }) := step_of_script hs hl

/-- Settles O38: the step is the reset event, which sets the fields in every phase and draws a new canonical `BUF`. -/
theorem rstAbandonsCommand : Obligations.RstAbandonsCommand := fun _ _ hs hl =>
  ⟨_, step_of_reset hs hl, resetEvent_phase _, resetEvent_busy _, resetEvent_done _, resetEvent_err _,
    resetEvent_cause _, resetEvent_lenOut _, resetEvent_scr _, Memory.anyBytes_size _ _, Memory.wf_anyBytes _ _,
    resetEvent_script _⟩

/-- Settles O45: the spec's fields show no command, no `SCR` and no error (R25); the model's own choices are a `CAP` of
at least 1, an empty listing of `BUF` and registers at 0 (log 2, log 7). -/
theorem resetIsLegal : Obligations.ResetIsLegal where
  capPos := (by decide : 1 ≤ Config.resetCap)
  bufWf := Memory.empty_wf Config.resetCap
  busyIff := rfl
  doneIdle := nofun
  errCause := .inl ⟨rfl, rfl⟩
  widths := ⟨Nat.two_pow_pos _, Nat.two_pow_pos _, Nat.two_pow_pos _, Nat.two_pow_pos _⟩
  lenInWidth := Nat.two_pow_pos _
  phases := (phaseInv_of_idle rfl).mpr ⟨rfl, Nat.zero_le _⟩

end Sys2Proof.Machine
end
